-- ==== Sys2Proof/Word.lean ====
section
/-! DEFINITION. The words of the engine: bytes, nibbles and 32-bit register words (spec/00_scope.md R5, R8). -/

namespace Sys2Proof

/-- A 32-bit word: a register value, a command word or a plane word (R5). -/
abbrev Word := BitVec 32

/-- One byte of the plane or of the linear buffer (R31, R32). -/
abbrev Byte := BitVec 8

/-- One 4-bit sample (R9, R94). -/
abbrev Nibble := BitVec 4

end Sys2Proof
end

