-- ==== Sys2Proof/Syntax.lean ====
section
/-! DEFINITION. The syntax of the interface: the eleven commands of spec/30_encoding.md R47, the register names of
spec/10_state.md R14, the transactions of a host (R52, R55, R126) and the statements of a listing (R54 to R58). -/

namespace Sys2Proof

/-- The commands: one constructor per row of spec/opcode_table.json. A command has no operand field: "every operand
is read from the parameter registers" (R46). -/
inductive Instr where
  /-- ADDR32 (OP 0x1, R81). -/
  | addr32
  /-- ADDR8 (OP 0x2, R82). -/
  | addr8
  /-- ADDR4 (OP 0x3, R83). -/
  | addr4
  /-- WRITE32 (OP 0x4, R90). -/
  | write32
  /-- READ32 (OP 0x5, R91). -/
  | read32
  /-- WRITE8 (OP 0x6, R92). -/
  | write8
  /-- READ8 (OP 0x7, R93). -/
  | read8
  /-- WRITE4 (OP 0x8, R95). -/
  | write4
  /-- READ4 (OP 0x9, R96). -/
  | read4
  /-- UNSWIZZLE (OP 0xA, R103). -/
  | unswizzle
  /-- SWIZZLE (OP 0xB, R104). -/
  | swizzle
  deriving DecidableEq, Repr

/-- The three pixel-storage formats (R5, R10): 32-bit direct color, 8-bit indexed, 4-bit indexed. -/
inductive Format where
  | f32
  | f8
  | f4
  deriving DecidableEq, Repr

/-- The twelve registers of the window (R14). -/
inductive RegName where
  | cmd
  | status
  | base
  | bufw
  | rx
  | ry
  | rw
  | rh
  | bpp
  | lsrc
  | ldst
  | result
  deriving DecidableEq, Repr

/-- One transaction of an agent outside the engine: one event of the total order of spec/20_memory.md R41. -/
inductive HostEvent where
  /-- A register write, `bits` wide, at a byte offset of the window (R52). -/
  | regWrite (bits : Nat) (offset : Nat) (value : Word)
  /-- A register read, `bits` wide, at a byte offset of the window (R52). -/
  | regRead (bits : Nat) (offset : Nat)
  /-- A direct write of the listed bytes to the linear buffer (R26, R55 `LBW`). -/
  | lbWrite (offset : Nat) (bytes : List Byte)
  /-- A direct read of `n` bytes of the linear buffer (R26, R55 `LBR`). -/
  | lbRead (offset : Nat) (n : Nat)
  /-- A reset of the engine (R126). It carries what the plane holds afterwards, which R128 leaves unspecified
  (log 6). -/
  | reset (plane0 : List Byte)
  deriving DecidableEq, Repr

/-- A statement of a listing (R54 to R58). -/
inductive Stmt where
  /-- `SET <REG>, <value>` (R54). -/
  | set (r : RegName) (value : Word)
  /-- `GET <REG>` (R54). -/
  | get (r : RegName)
  /-- `<MNEMONIC>` alone (R54). -/
  | op (i : Instr)
  /-- `CMD <value>`: an arbitrary word written to CMD (R54). -/
  | cmd (value : Word)
  /-- `LBW <offset>, <b0> <b1> ...` (R55). -/
  | lbw (offset : Nat) (bytes : List Byte)
  /-- `LBR <offset>, <n>` (R55). -/
  | lbr (offset : Nat) (n : Nat)
  /-- `RECT x, y, w, h` (R56). -/
  | rect (x y w h : Word)
  /-- `ADDR32.AT x, y`, `ADDR8.AT x, y`, `ADDR4.AT x, y` (R57). -/
  | addrAt (f : Format) (x y : Word)
  /-- `UNSWZ bpp, width, height, src, dst` (R58). -/
  | unswz (bpp width height src dst : Word)
  /-- `SWZ bpp, width, height, src, dst` (R58). -/
  | swz (bpp width height src dst : Word)
  deriving DecidableEq, Repr

end Sys2Proof
end

