-- ==== Sys2Proof/WellFormed.lean ====
section
/-! DEFINITION. Which terms of Syntax.lean the interface admits. -/

namespace Sys2Proof

/-- Every command is well formed: it has no operand field that could be out of range (R46, R51). -/
def Instr.wf : Instr → Bool
  | .addr32 | .addr8 | .addr4 => true
  | .write32 | .read32 | .write8 | .read8 | .write4 | .read4 => true
  | .unswizzle | .swizzle => true

/-- A register access is admitted when it is 32 bits wide at an offset that is a multiple of 4 (R24). -/
def accessAdmitted (bits offset : Nat) : Bool :=
  bits == 32 && offset % 4 == 0

/-- The transactions the interface admits (R24). Host accesses to the linear buffer have "any width" (R32). -/
def HostEvent.wf : HostEvent → Bool
  | .regWrite bits offset _ => accessAdmitted bits offset
  | .regRead bits offset => accessAdmitted bits offset
  | .lbWrite _ _ => true
  | .lbRead _ _ => true
  | .reset _ => true

/-- `SET` takes one of the nine parameter registers (R54). -/
def RegName.settable : RegName → Bool
  | .cmd | .status | .result => false
  | .base | .bufw | .rx | .ry | .rw | .rh | .bpp | .lsrc | .ldst => true

/-- The statements a listing may hold (R54 to R58). -/
def Stmt.wf : Stmt → Bool
  | .set r _ => r.settable
  | .get _ | .op _ | .cmd _ | .lbw _ _ | .lbr _ _ => true
  | .rect _ _ _ _ | .addrAt _ _ _ | .unswz _ _ _ _ _ | .swz _ _ _ _ _ => true

end Sys2Proof
end

