-- ==== Sys2Proof/Decode.lean ====
section
/-! DEFINITION. The command decoder and encoder (spec/30_encoding.md R46 to R50). The decoder is total on 32-bit
words and rejects an illegal word by name; the encoder gives each command its one word. -/

namespace Sys2Proof

/-- Why a command word is illegal (R48, R49). Either way the command ends with E_OPCODE (R116). -/
inductive IllegalWord where
  /-- A bit of bits[31:4] is set (R48). -/
  | reservedBits
  /-- OP is 0x0 or 0xC..0xF (R49). -/
  | reservedOp (op : Nat)
  deriving DecidableEq, Repr

/-- The field `OP = bits[3:0]` (R46). -/
def opField (w : Word) : Nat := w.toNat % 16

/-- The field `RSVD = bits[31:4]` (R46). -/
def reservedField (w : Word) : Nat := w.toNat / 16

/-- The opcode map of R47, read from a command word. -/
def decode (w : Word) : Except IllegalWord Instr :=
  if reservedField w = 0 then
    match opField w with
    | 0x1 => .ok .addr32
    | 0x2 => .ok .addr8
    | 0x3 => .ok .addr4
    | 0x4 => .ok .write32
    | 0x5 => .ok .read32
    | 0x6 => .ok .write8
    | 0x7 => .ok .read8
    | 0x8 => .ok .write4
    | 0x9 => .ok .read4
    | 0xA => .ok .unswizzle
    | 0xB => .ok .swizzle
    | op => .error (.reservedOp op)
  else .error .reservedBits

/-- The opcode map of R47, from a command to its OP. -/
def opcode : Instr → BitVec 4
  | .addr32 => 0x1
  | .addr8 => 0x2
  | .addr4 => 0x3
  | .write32 => 0x4
  | .read32 => 0x5
  | .write8 => 0x6
  | .read8 => 0x7
  | .write4 => 0x8
  | .read4 => 0x9
  | .unswizzle => 0xA
  | .swizzle => 0xB

/-- The one word of a command: OP in bits[3:0], zeros in bits[31:4] (R46, R48). -/
def encode (i : Instr) : Word := (0 : BitVec 28) ++ opcode i

/-- The command the decoder reads from a table word: bit 0 is bit 0 of CMD. -/
def decodeTableWord (nbits w : Nat) : Option Instr :=
  match decode (BitVec.ofNat 32 (w % 2 ^ nbits)) with
  | .ok i => some i
  | .error _ => none

end Sys2Proof
end

