-- ==== Sys2Proof/Config.lean ====
section
/-! DEFINITION. What is fixed for the machine, and the parameters the spec leaves OPEN (spec/00_scope.md R5, R6).
An open parameter is an opaque constant: no proof sees its value. -/

namespace Sys2Proof.Config

/-- `PLANE_SIZE` = 4 MiB = 2^22 bytes (R5, R25). -/
def planeSize : Nat := 4194304

/-- `plane0`: the plane's content after power-on, byte `a` at place `a` (R6, R128; log 1). FREE: the spec leaves it
OPEN and every claim quantifies over it. -/
opaque plane0 : List Byte

/-- `lb0`: the linear buffer's content when the model starts (R6, R129; log 2). FREE. -/
opaque lb0 : List Byte

/-- `LB_SIZE`: the byte size of the linear buffer (R6, R26; log 3). FREE. -/
opaque lbSize : Nat

/-- `ENGINE_BASE_ADDR`: where the register window stands in the platform's address space, "which no rule of this
spec reads" (R39; log 12). FREE, and read by nothing here either. -/
opaque engineBaseAddr : Nat

end Sys2Proof.Config
end

