-- ==== Sys2Proof/Machine/State.lean ====
section
/-! DEFINITION. The state of the engine and of the agents around it (spec/10_state.md R11 to R30), as plain data, the
reasons a step can stop, and the state after reset. -/

namespace Sys2Proof.Machine

/-- A byte memory: the listed bytes, addresses strictly rising, none equal to what an unlisted address reads as
(`Memory.wf`, Machine/Memory.lean). -/
abbrev Memory := List Host.Cell

/-- STATUS.ERR (R16, R115): the outcome of the most recent command. Codes 5..15 are "never produced" (U11), so the
type has none. -/
inductive ErrorCode where
  /-- 0: success. -/
  | ok
  /-- 1: E_OPCODE (R116). -/
  | opcode
  /-- 2: E_GEOMETRY (R117). -/
  | geometry
  /-- 3: E_RANGE (R119). -/
  | range
  /-- 4: E_LINEAR (R118). -/
  | linear
  deriving DecidableEq, Repr

/-- What a read has returned to a host (R52, R55). -/
inductive Seen where
  /-- A register read: its offset and the 32-bit value. -/
  | reg (offset : Nat) (value : Word)
  /-- A linear-buffer read: its offset and the bytes. -/
  | lb (offset : Nat) (bytes : List Byte)
  deriving DecidableEq, Repr

/-- An agent outside the engine (R7): the transactions it has still to make, in its program order, and what its reads
have returned, newest first (log 4, log 5). -/
structure Agent where
  pending : List HostEvent
  seen : List Seen
  deriving DecidableEq, Repr

/-- The two byte memories a command reaches (R31, R32). -/
inductive Space where
  | plane
  | linear
  deriving DecidableEq, Repr

/-- The whole state. Registers are held at the width of their defined bits (R14), so that a reserved bit reads 0. -/
@[ext]
structure State where
  /-- BASE (R17). -/
  base : BitVec 14
  /-- BUFW (R18). -/
  bufw : BitVec 16
  /-- RX (R19). -/
  rx : BitVec 16
  /-- RY (R19). -/
  ry : BitVec 16
  /-- RW (R20). -/
  rw : BitVec 16
  /-- RH (R20). -/
  rh : BitVec 16
  /-- BPP (R21). -/
  bpp : BitVec 4
  /-- LSRC (R22). -/
  lsrc : BitVec 32
  /-- LDST (R22). -/
  ldst : BitVec 32
  /-- STATUS.ERR (R16). -/
  err : ErrorCode
  /-- STATUS.STICKY (R16, R114). -/
  sticky : Bool
  /-- RESULT: OFFSET in bits[21:0], NIB in bit 22 (R23). -/
  result : BitVec 23
  /-- The plane `P`, where it differs from `plane0` (R25). -/
  plane : Memory
  /-- The linear buffer `L`, where it differs from `lb0` (R26). -/
  linear : Memory
  /-- The parameter `plane0` (R128): byte `a` of the plane's content after reset (log 1). -/
  plane0 : List Byte
  /-- The parameter `lb0` (R129): byte `a` of the linear buffer's first content (log 2). -/
  lb0 : List Byte
  /-- The parameter `LB_SIZE` (R26; log 3). -/
  lbSize : Nat
  /-- The agents outside the engine (R7; log 4). -/
  agents : List Agent
  /-- Whose turn it is to make the next event of the total order, as places of `agents` (R41; log 4). -/
  turns : List Nat
  deriving DecidableEq, Repr

/-- Why the machine stops. No command faults: an error of a command is a code in STATUS (R111). -/
inductive Fault where
  /-- A host access to linear bytes that do not exist, at or above LB_SIZE (R26; log 7). Raised by the host's direct
  linear-buffer read and write. Safe: the model stops where a platform may go on. -/
  | hostLinearAbsent (offset n : Nat)
  deriving DecidableEq, Repr

/-- Why the model refuses to go on. -/
inductive Refusal where
  /-- An instruction without a meaning yet. Raised by exec's refused arms only; safe. -/
  | notModelled (mnemonic : String)
  /-- A register access that is not 32 bits wide or not at a multiple of 4: "the model refuses it" (R24). Raised by a
  host's register read and write; safe. -/
  | accessNotAdmitted (bits offset : Nat)
  deriving DecidableEq, Repr

/-- The machine right after power-on: every register 0 (R127), the plane `plane0` (R128), the linear buffer `lb0`
(R129), one host that has nothing to do (log 4). -/
def State.reset : State where
  base := 0
  bufw := 0
  rx := 0
  ry := 0
  rw := 0
  rh := 0
  bpp := 0
  lsrc := 0
  ldst := 0
  err := .ok
  sticky := false
  result := 0
  plane := []
  linear := []
  plane0 := Config.plane0
  lb0 := Config.lb0
  lbSize := Config.lbSize
  agents := [{ pending := [], seen := [] }]
  turns := []

end Sys2Proof.Machine
end

