-- ==== Sys2Proof/Machine/Tables.lean ====
section
/-! DEFINITION. The geometry of the three formats (spec/40_address_engine.md R61) and the fixed tables, as literal
data (R27, R68 to R75). The contents are the spec's, which takes them from general knowledge (its G1 to G3; log 10). -/

namespace Sys2Proof.Machine

/-- A format's sizes, in pixels but for `rowBlocks`, in blocks (R61). -/
structure Geometry where
  pageW : Nat
  pageH : Nat
  blockW : Nat
  blockH : Nat
  rowBlocks : Nat
  colH : Nat
  deriving DecidableEq, Repr

/-- The table of R61. -/
def geometry : Format → Geometry
  | .f32 => { pageW := 64, pageH := 32, blockW := 8, blockH := 8, rowBlocks := 8, colH := 2 }
  | .f8 => { pageW := 128, pageH := 64, blockW := 16, blockH := 16, rowBlocks := 8, colH := 4 }
  | .f4 => { pageW := 128, pageH := 128, blockW := 32, blockH := 16, rowBlocks := 4, colH := 4 }

/-- BLOCK32 (R68). -/
def block32 : List Nat :=
  [ 0,  1,  4,  5, 16, 17, 20, 21] ++
  [ 2,  3,  6,  7, 18, 19, 22, 23] ++
  [ 8,  9, 12, 13, 24, 25, 28, 29] ++
  [10, 11, 14, 15, 26, 27, 30, 31]

/-- BLOCK8 (R69). -/
def block8 : List Nat :=
  [ 0,  1,  4,  5, 16, 17, 20, 21] ++
  [ 2,  3,  6,  7, 18, 19, 22, 23] ++
  [ 8,  9, 12, 13, 24, 25, 28, 29] ++
  [10, 11, 14, 15, 26, 27, 30, 31]

/-- BLOCK4 (R70). -/
def block4 : List Nat :=
  [ 0,  2,  8, 10] ++
  [ 1,  3,  9, 11] ++
  [ 4,  6, 12, 14] ++
  [ 5,  7, 13, 15] ++
  [16, 18, 24, 26] ++
  [17, 19, 25, 27] ++
  [20, 22, 28, 30] ++
  [21, 23, 29, 31]

/-- COLWORD32 (R71). -/
def colWord32 : List Nat :=
  [ 0,  1,  4,  5,  8,  9, 12, 13] ++
  [ 2,  3,  6,  7, 10, 11, 14, 15]

/-- COLWORD8[0], even columns (R72). -/
def colWord8Even : List Nat :=
  [ 0,  1,  4,  5,  8,  9, 12, 13,  0,  1,  4,  5,  8,  9, 12, 13] ++
  [ 2,  3,  6,  7, 10, 11, 14, 15,  2,  3,  6,  7, 10, 11, 14, 15] ++
  [ 8,  9, 12, 13,  0,  1,  4,  5,  8,  9, 12, 13,  0,  1,  4,  5] ++
  [10, 11, 14, 15,  2,  3,  6,  7, 10, 11, 14, 15,  2,  3,  6,  7]

/-- COLWORD8[1], odd columns (R72). -/
def colWord8Odd : List Nat :=
  [ 8,  9, 12, 13,  0,  1,  4,  5,  8,  9, 12, 13,  0,  1,  4,  5] ++
  [10, 11, 14, 15,  2,  3,  6,  7, 10, 11, 14, 15,  2,  3,  6,  7] ++
  [ 0,  1,  4,  5,  8,  9, 12, 13,  0,  1,  4,  5,  8,  9, 12, 13] ++
  [ 2,  3,  6,  7, 10, 11, 14, 15,  2,  3,  6,  7, 10, 11, 14, 15]

/-- COLBYTE8, both parities (R73). -/
def colByte8 : List Nat :=
  [0, 0, 0, 0, 0, 0, 0, 0, 2, 2, 2, 2, 2, 2, 2, 2] ++
  [0, 0, 0, 0, 0, 0, 0, 0, 2, 2, 2, 2, 2, 2, 2, 2] ++
  [1, 1, 1, 1, 1, 1, 1, 1, 3, 3, 3, 3, 3, 3, 3, 3] ++
  [1, 1, 1, 1, 1, 1, 1, 1, 3, 3, 3, 3, 3, 3, 3, 3]

/-- COLWORD4[0], even columns (R74). -/
def colWord4Even : List Nat :=
  [ 0,  1,  4,  5,  8,  9, 12, 13,  0,  1,  4,  5,  8,  9, 12, 13] ++
  [ 0,  1,  4,  5,  8,  9, 12, 13,  0,  1,  4,  5,  8,  9, 12, 13] ++
  [ 2,  3,  6,  7, 10, 11, 14, 15,  2,  3,  6,  7, 10, 11, 14, 15] ++
  [ 2,  3,  6,  7, 10, 11, 14, 15,  2,  3,  6,  7, 10, 11, 14, 15] ++
  [ 8,  9, 12, 13,  0,  1,  4,  5,  8,  9, 12, 13,  0,  1,  4,  5] ++
  [ 8,  9, 12, 13,  0,  1,  4,  5,  8,  9, 12, 13,  0,  1,  4,  5] ++
  [10, 11, 14, 15,  2,  3,  6,  7, 10, 11, 14, 15,  2,  3,  6,  7] ++
  [10, 11, 14, 15,  2,  3,  6,  7, 10, 11, 14, 15,  2,  3,  6,  7]

/-- COLWORD4[1], odd columns (R74). -/
def colWord4Odd : List Nat :=
  [ 8,  9, 12, 13,  0,  1,  4,  5,  8,  9, 12, 13,  0,  1,  4,  5] ++
  [ 8,  9, 12, 13,  0,  1,  4,  5,  8,  9, 12, 13,  0,  1,  4,  5] ++
  [10, 11, 14, 15,  2,  3,  6,  7, 10, 11, 14, 15,  2,  3,  6,  7] ++
  [10, 11, 14, 15,  2,  3,  6,  7, 10, 11, 14, 15,  2,  3,  6,  7] ++
  [ 0,  1,  4,  5,  8,  9, 12, 13,  0,  1,  4,  5,  8,  9, 12, 13] ++
  [ 0,  1,  4,  5,  8,  9, 12, 13,  0,  1,  4,  5,  8,  9, 12, 13] ++
  [ 2,  3,  6,  7, 10, 11, 14, 15,  2,  3,  6,  7, 10, 11, 14, 15] ++
  [ 2,  3,  6,  7, 10, 11, 14, 15,  2,  3,  6,  7, 10, 11, 14, 15]

/-- COLBYTE4, both parities (R75). -/
def colByte4 : List Nat :=
  [0, 0, 0, 0, 0, 0, 0, 0, 2, 2, 2, 2, 2, 2, 2, 2] ++
  [4, 4, 4, 4, 4, 4, 4, 4, 6, 6, 6, 6, 6, 6, 6, 6] ++
  [0, 0, 0, 0, 0, 0, 0, 0, 2, 2, 2, 2, 2, 2, 2, 2] ++
  [4, 4, 4, 4, 4, 4, 4, 4, 6, 6, 6, 6, 6, 6, 6, 6] ++
  [1, 1, 1, 1, 1, 1, 1, 1, 3, 3, 3, 3, 3, 3, 3, 3] ++
  [5, 5, 5, 5, 5, 5, 5, 5, 7, 7, 7, 7, 7, 7, 7, 7] ++
  [1, 1, 1, 1, 1, 1, 1, 1, 3, 3, 3, 3, 3, 3, 3, 3] ++
  [5, 5, 5, 5, 5, 5, 5, 5, 7, 7, 7, 7, 7, 7, 7, 7]

/-- BLOCK_F of R63. -/
def blockTable : Format → List Nat
  | .f32 => block32
  | .f8 => block8
  | .f4 => block4

/-- The column word table of a format at a column parity (R65). F32 has no parity selection. -/
def colWordTable (f : Format) (parity : Nat) : List Nat :=
  match f with
  | .f32 => colWord32
  | .f8 => if parity = 0 then colWord8Even else colWord8Odd
  | .f4 => if parity = 0 then colWord4Even else colWord4Odd

/-- Is a table a permutation of `0 .. n-1` (R77)? It has `n` entries, and every value is one of them. -/
def isPermutation (n : Nat) (t : List Nat) : Bool :=
  t.length == n && (List.range n).all fun v => t.contains v

/-- Do the pairs of a column word table and a selector table take every value of `0..15` by `0 .. n-1` exactly once
(R77)? There are `16 * n` pairs, and every value is one of them. -/
def pairsTakeEachOnce (n : Nat) (words selectors : List Nat) : Bool :=
  words.length == 16 * n && selectors.length == 16 * n &&
    (List.range 16).all fun w => (List.range n).all fun s => (words.zip selectors).contains (w, s)

/-- The permutation properties of R77, as a check of the tables that fails when an entry is wrong in a way that breaks
them. -/
def tablesPermute : Bool :=
  isPermutation 32 block32 && isPermutation 32 block8 && isPermutation 32 block4 && isPermutation 16 colWord32 &&
    pairsTakeEachOnce 4 colWord8Even colByte8 && pairsTakeEachOnce 4 colWord8Odd colByte8 &&
    pairsTakeEachOnce 8 colWord4Even colByte4 && pairsTakeEachOnce 8 colWord4Odd colByte4

end Sys2Proof.Machine
end

