-- ==== Sys2Proof/Machine/Address.lean ====
section
/-! DEFINITION. The tiling address engine: `addressOf_F` (spec/40_address_engine.md R61 to R67, R78 to R80). All
quantities are naturals (R8); the page, block, column and word of a pixel are one definition each. -/

namespace Sys2Proof.Machine

/-- Where a pixel lies: the byte offset in the plane, and the nibble half, 0 but for F4 (R67). -/
@[ext]
structure PixelAddr where
  offset : Nat
  half : Nat
  deriving DecidableEq, Repr

/-- `page = pageX + pageY * BW` (R62). -/
def pageOf (f : Format) (bw x y : Nat) : Nat :=
  x / (geometry f).pageW + y / (geometry f).pageH * bw

/-- The block of a pixel, from its page-local coordinates (R63). -/
def blockOf (f : Format) (x y : Nat) : Nat :=
  let g := geometry f
  (blockTable f).getD (x % g.pageW / g.blockW + y % g.pageH / g.blockH * g.rowBlocks) 0

/-- `column = by div CH` (R64). -/
def columnOf (f : Format) (y : Nat) : Nat :=
  let g := geometry f
  y % g.pageH % g.blockH / g.colH

/-- The column-local table index `ci = cx + cy * BKW` (R65). -/
def columnIndex (f : Format) (x y : Nat) : Nat :=
  let g := geometry f
  x % g.pageW % g.blockW + y % g.pageH % g.blockH % g.colH * g.blockW

/-- The word within the column (R65). -/
def columnWord (f : Format) (x y : Nat) : Nat :=
  (colWordTable f (columnOf f y % 2)).getD (columnIndex f x y) 0

/-- The sub-word selector: 0 for F32, a byte for F8, a nibble for F4 (R65). -/
def selectorOf (f : Format) (x y : Nat) : Nat :=
  match f with
  | .f32 => 0
  | .f8 => colByte8.getD (columnIndex .f8 x y) 0
  | .f4 => colByte4.getD (columnIndex .f4 x y) 0

/-- The word index `W` (R66). -/
def wordIndex (f : Format) (bp bw x y : Nat) : Nat :=
  bp * 64 + pageOf f bw x y * 2048 + blockOf f x y * 64 + columnOf f y * 16 + columnWord f x y

/-- `addressOf_F(bp, BW, x, y)` (R67, R78 to R80). -/
def addressOf (f : Format) (bp bw x y : Nat) : PixelAddr :=
  match f with
  | .f32 => { offset := 4 * wordIndex .f32 bp bw x y, half := 0 }
  | .f8 => { offset := 4 * wordIndex .f8 bp bw x y + selectorOf .f8 x y, half := 0 }
  | .f4 => { offset := 4 * wordIndex .f4 bp bw x y + selectorOf .f4 x y / 2, half := selectorOf .f4 x y % 2 }

end Sys2Proof.Machine
end

