-- ==== Sys2Proof/Machine/Memory.lean ====
section
/-! DEFINITION. A byte memory over its first content `d`: a canonical list of the bytes that differ from `d`
(spec/20_memory.md R31, R32). -/

namespace Sys2Proof.Machine

/-- The byte at an address: the listed one, or the first content. -/
def Memory.read (d : Nat → Byte) : Memory → Nat → Byte
  | [], a => d a
  | (b, v) :: m, a => if a = b then v else Memory.read d m a

/-- List a byte at its place among rising addresses. -/
def Memory.insert (a : Nat) (v : Byte) : Memory → Memory
  | [] => [(a, v)]
  | (b, w) :: m =>
    if a < b then (a, v) :: (b, w) :: m
    else if a = b then (a, v) :: m
    else (b, w) :: Memory.insert a v m

/-- Take an address off the list. -/
def Memory.erase (a : Nat) : Memory → Memory
  | [] => []
  | (b, w) :: m => if a = b then Memory.erase a m else (b, w) :: Memory.erase a m

/-- Write one byte, keeping the canonical form: writing the first content removes the entry. -/
def Memory.write (d : Nat → Byte) (a : Nat) (v : Byte) (m : Memory) : Memory :=
  if v = d a then Memory.erase a m else Memory.insert a v m

/-- The canonical form: addresses strictly rising and below `size`, no entry equal to the first content. -/
abbrev Memory.wf (d : Nat → Byte) (size : Nat) (m : Memory) : Prop :=
  m.Pairwise (fun c c' => c.1 < c'.1) ∧ ∀ c ∈ m, c.1 < size ∧ c.2 ≠ d c.1

end Sys2Proof.Machine
end

