-- ==== Sys2Proof/Machine/Ops.lean ====
section
/-! DEFINITION. The named operations over the two memories and RESULT: the pseudocode primitives of
spec/00_scope.md R9. There is no exception to take and none to return from (spec/60_exceptions.md R111, R123): what
stands in its place, the completion of a command, is `State.complete` in Machine/Flags.lean. -/

namespace Sys2Proof.Machine

/-- What an unlisted address reads as: `plane0` in the plane (R25), `lb0` in the linear buffer (R26). A list shorter
than the memory stands for one padded with zeros (log 1, log 2). -/
def State.initial (s : State) : Space → Nat → Byte
  | .plane, a => s.plane0.getD a 0
  | .linear, a => s.lb0.getD a 0

/-- The size of a memory in bytes (R25, R26). -/
def State.sizeOf (s : State) : Space → Nat
  | .plane => Config.planeSize
  | .linear => s.lbSize

/-- `MemRead(P, a, 1)` and `MemRead(L, a, 1)` (R9). -/
def State.readByte (s : State) (sp : Space) (a : Nat) : Byte :=
  match sp with
  | .plane => s.plane.read (s.initial .plane) a
  | .linear => s.linear.read (s.initial .linear) a

/-- `MemWrite(P, a, 1, v)` and `MemWrite(L, a, 1, v)` (R9). -/
def State.writeByte (s : State) (sp : Space) (a : Nat) (v : Byte) : State :=
  match sp with
  | .plane => { s with plane := s.plane.write (s.initial .plane) a v }
  | .linear => { s with linear := s.linear.write (s.initial .linear) a v }

/-- `MemRead(·, a, n)`: the byte at `a` first (R9, R34). -/
def State.readBytes (s : State) (sp : Space) (a n : Nat) : List Byte :=
  (List.range n).map fun i => s.readByte sp (a + i)

/-- `MemWrite(·, a, n, v)`: `v[0]` at `a` (R9, R34). -/
def State.writeBytes (s : State) (sp : Space) (a : Nat) : List Byte → State
  | [] => s
  | v :: vs => State.writeBytes (s.writeByte sp a v) sp (a + 1) vs

/-- Bits `[4h+3:4h]` of a byte (R9, R34). -/
def getNibble (b : Byte) (h : Nat) : Nibble :=
  if h = 0 then b.extractLsb' 0 4 else b.extractLsb' 4 4

/-- A byte with bits `[4h+3:4h]` replaced and "the other four bits of the byte unchanged" (R9). -/
def setNibble (b : Byte) (h : Nat) (v : Nibble) : Byte :=
  if h = 0 then b.extractLsb' 4 4 ++ v else v ++ b.extractLsb' 0 4

/-- `NibRead(·, a, h)` (R9). -/
def State.readNibble (s : State) (sp : Space) (a h : Nat) : Nibble :=
  getNibble (s.readByte sp a) h

/-- `NibWrite(·, a, h, v)`: a read-modify-write of one byte (R9, R137). -/
def State.writeNibble (s : State) (sp : Space) (a h : Nat) (v : Nibble) : State :=
  s.writeByte sp a (setNibble (s.readByte sp a) h v)

/-- `reg[RESULT] <- off | (h << 22)` (R23, R81 to R83). -/
def State.setResult (s : State) (p : PixelAddr) : State :=
  { s with result := BitVec.ofNat 23 (p.offset ||| (p.half <<< 22)) }

end Sys2Proof.Machine
end

