-- ==== Sys2Proof/Machine/Flags.lean ====
section
/-! DEFINITION. STATUS: the error codes, the register's word, and its update at the completion of a command
(spec/10_state.md R16, spec/60_exceptions.md R113 to R115). The engine has no other flag (R29). -/

namespace Sys2Proof.Machine

/-- The code of an outcome in STATUS.ERR (R115). -/
def ErrorCode.code : ErrorCode → Nat
  | .ok => 0
  | .opcode => 1
  | .geometry => 2
  | .range => 3
  | .linear => 4

/-- The STATUS word: ERR in bits[3:0], STICKY in bit 8, the other bits 0 (R16). -/
def State.statusWord (s : State) : Word :=
  BitVec.ofNat 32 (s.err.code + if s.sticky then 256 else 0)

/-- The completion of a command with outcome `e`: ERR takes the code, and an error sets STICKY (R113). This is the
only update of STATUS but reset. -/
def State.complete (s : State) (e : ErrorCode) : State :=
  { s with err := e, sticky := s.sticky || e != .ok }

end Sys2Proof.Machine
end

