-- ==== Sys2Proof/Machine/Operands.lean ====
section
/-! DEFINITION. The operands of a command: register values zero-extended to naturals (spec/30_encoding.md R51), the
rectangle of a writer or reader pass (spec/41_transfer.md R86 to R88) and its checks. -/

namespace Sys2Proof.Machine

/-- One writer or reader pass: base page, buffer width, rectangle and linear offset (R86, R102). -/
structure Pass where
  base : Nat
  bufw : Nat
  x0 : Nat
  y0 : Nat
  w : Nat
  h : Nat
  lin : Nat
  deriving DecidableEq, Repr

/-- The pixels of the rectangle in ascending `k`: `y` in the outer loop, `x` in the inner loop (R9, R87). -/
def Pass.pixels (p : Pass) : List (Nat × Nat) :=
  (List.range' p.y0 p.h).flatMap fun y => (List.range' p.x0 p.w).map fun x => (x, y)

/-- `k(x, y) = (y - y0) * w + (x - x0)` (R87). -/
def Pass.index (p : Pass) (x y : Nat) : Nat :=
  (y - p.y0) * p.w + (x - p.x0)

/-- `N = w * h` (R86). -/
def Pass.count (p : Pass) : Nat := p.w * p.h

/-- The address of a pixel of the pass (R86). -/
def Pass.address (p : Pass) (f : Format) (x y : Nat) : PixelAddr :=
  addressOf f p.base p.bufw x y

/-- `lengthF(N)`, in bytes (R88). -/
def linearLength (f : Format) (n : Nat) : Nat :=
  match f with
  | .f32 => 4 * n
  | .f8 => n
  | .f4 => (n + 1) / 2

/-- Every pixel of the pass lies in the plane (R86). -/
def Pass.inPlane (p : Pass) (f : Format) : Bool :=
  p.pixels.all fun q => (p.address f q.1 q.2).offset < Config.planeSize

/-- The linear range of the pass, if it is not empty, lies in the linear buffer (R86, R97). -/
def Pass.inLinear (p : Pass) (f : Format) (lbSize : Nat) : Bool :=
  linearLength f p.count = 0 || p.lin + linearLength f p.count ≤ lbSize

/-- The checks of R86 in the order of R121: E_RANGE, then E_LINEAR. -/
def Pass.check (p : Pass) (f : Format) (lbSize : Nat) : ErrorCode :=
  if p.inPlane f = false then .range
  else if p.inLinear f lbSize = false then .linear
  else .ok

/-- The pass of a WRITE or READ command: BASE, BUFW, RX, RY, RW, RH, and LSRC or LDST as `lin` (R51, R86). -/
def State.rectPass (s : State) (lin : Nat) : Pass where
  base := s.base.toNat
  bufw := s.bufw.toNat
  x0 := s.rx.toNat
  y0 := s.ry.toNat
  w := s.rw.toNat
  h := s.rh.toNat
  lin := lin

/-- The pass of a WRITE command (R86, R90). -/
def State.writePass (s : State) : Pass := s.rectPass s.lsrc.toNat

/-- The pass of a READ command (R86, R91). -/
def State.readPass (s : State) : Pass := s.rectPass s.ldst.toNat

/-- `addressOf_F` of BASE, BUFW, RX, RY (R81). -/
def State.pixelAddress (s : State) (f : Format) : PixelAddr :=
  addressOf f s.base.toNat s.bufw.toNat s.rx.toNat s.ry.toNat

/-- `n`, the bytes of the index stream (R101). -/
def State.streamLength (s : State) : Nat :=
  if s.bpp.toNat = 8 then s.rw.toNat * s.rh.toNat else s.rw.toNat * s.rh.toNat / 2

/-- The sizes UNSWIZZLE and SWIZZLE take (R101, R117). -/
def State.geometryLegal (s : State) : Bool :=
  (s.bpp.toNat = 4 || s.bpp.toNat = 8) && s.rw.toNat != 0 && s.rh.toNat != 0 &&
    s.rw.toNat % 128 = 0 && s.rh.toNat % 128 = 0

/-- The checks of R101 in the order of R121. -/
def State.orchestratorCheck (s : State) : ErrorCode :=
  if s.geometryLegal = false then .geometry
  else if Config.planeSize < s.streamLength then .range
  else if s.lbSize < s.lsrc.toNat + s.streamLength ∨ s.lbSize < s.ldst.toNat + s.streamLength then .linear
  else .ok

/-- "the target bpp's" format `Fb` (R102). -/
def State.depthFormat (s : State) : Format :=
  if s.bpp.toNat = 8 then .f8 else .f4

/-- The pass over the scaled F32 rectangle (R102). -/
def State.scaledPass (s : State) (lin : Nat) : Pass where
  base := 0
  bufw := s.rw.toNat / 128
  x0 := 0
  y0 := 0
  w := s.rw.toNat / 2
  h := if s.bpp.toNat = 8 then s.rh.toNat / 2 else s.rh.toNat / 4
  lin := lin

/-- The pass over the full rectangle in the format `Fb` (R102). -/
def State.fullPass (s : State) (lin : Nat) : Pass where
  base := 0
  bufw := s.rw.toNat / 128
  x0 := 0
  y0 := 0
  w := s.rw.toNat
  h := s.rh.toNat
  lin := lin

end Sys2Proof.Machine
end

