-- ==== Sys2Proof/Machine/AddressCommands.lean ====
section
/-! DEFINITION. The commands ADDR32, ADDR8, ADDR4 (spec/40_address_engine.md R81 to R83). -/

namespace Sys2Proof.Machine

/-- An ADDR command: RESULT takes the address, or the command ends with E_RANGE and no other effect (R81, R119). -/
def addressCommand (f : Format) (s : State) : Host.Outcome State Fault Refusal :=
  if Config.planeSize ≤ (s.pixelAddress f).offset then .next (s.complete .range)
  else .next ((s.setResult (s.pixelAddress f)).complete .ok)

/-- ADDR32 (R81). -/
def execAddr32 (s : State) : Host.Outcome State Fault Refusal := addressCommand .f32 s

/-- ADDR8 (R82). -/
def execAddr8 (s : State) : Host.Outcome State Fault Refusal := addressCommand .f8 s

/-- ADDR4 (R83). -/
def execAddr4 (s : State) : Host.Outcome State Fault Refusal := addressCommand .f4 s

end Sys2Proof.Machine
end

