-- ==== Sys2Proof/Machine/Transfer.lean ====
section
/-! DEFINITION. Writers and readers: WRITE32, READ32, WRITE8, READ8, WRITE4, READ4 (spec/41_transfer.md R86 to R98).
A pass is a fold over the pixels of its rectangle in ascending `k` (R89). -/

namespace Sys2Proof.Machine

/-- One pixel of a writer: linear buffer to plane (R90, R92, R95). -/
def writePixel (f : Format) (p : Pass) (s : State) (q : Nat × Nat) : State :=
  let k := p.index q.1 q.2
  let a := p.address f q.1 q.2
  match f with
  | .f32 => s.writeBytes .plane a.offset (s.readBytes .linear (p.lin + 4 * k) 4)
  | .f8 => s.writeByte .plane a.offset (s.readByte .linear (p.lin + k))
  | .f4 => s.writeNibble .plane a.offset a.half (s.readNibble .linear (p.lin + k / 2) (k % 2))

/-- One pixel of a reader: plane to linear buffer (R91, R93, R96). -/
def readPixel (f : Format) (p : Pass) (s : State) (q : Nat × Nat) : State :=
  let k := p.index q.1 q.2
  let a := p.address f q.1 q.2
  match f with
  | .f32 => s.writeBytes .linear (p.lin + 4 * k) (s.readBytes .plane a.offset 4)
  | .f8 => s.writeByte .linear (p.lin + k) (s.readByte .plane a.offset)
  | .f4 => s.writeNibble .linear (p.lin + k / 2) (k % 2) (s.readNibble .plane a.offset a.half)

/-- The writer of a format over a rectangle (R89). -/
def writerPass (f : Format) (p : Pass) (s : State) : State :=
  p.pixels.foldl (writePixel f p) s

/-- The reader of a format over a rectangle (R89). -/
def readerPass (f : Format) (p : Pass) (s : State) : State :=
  p.pixels.foldl (readPixel f p) s

/-- A WRITE command: the checks of R86 before any effect, then the writer (R90, R120). -/
def writeCommand (f : Format) (s : State) : Host.Outcome State Fault Refusal :=
  match s.writePass.check f s.lbSize with
  | .ok => .next ((writerPass f s.writePass s).complete .ok)
  | e => .next (s.complete e)

/-- A READ command: the checks of R86 before any effect, then the reader (R91, R120). -/
def readCommand (f : Format) (s : State) : Host.Outcome State Fault Refusal :=
  match s.readPass.check f s.lbSize with
  | .ok => .next ((readerPass f s.readPass s).complete .ok)
  | e => .next (s.complete e)

/-- WRITE32 (R90). -/
def execWrite32 (s : State) : Host.Outcome State Fault Refusal := writeCommand .f32 s

/-- READ32 (R91). -/
def execRead32 (s : State) : Host.Outcome State Fault Refusal := readCommand .f32 s

/-- WRITE8 (R92). -/
def execWrite8 (s : State) : Host.Outcome State Fault Refusal := writeCommand .f8 s

/-- READ8 (R93). -/
def execRead8 (s : State) : Host.Outcome State Fault Refusal := readCommand .f8 s

/-- WRITE4 (R95). -/
def execWrite4 (s : State) : Host.Outcome State Fault Refusal := writeCommand .f4 s

/-- READ4 (R96). -/
def execRead4 (s : State) : Host.Outcome State Fault Refusal := readCommand .f4 s

end Sys2Proof.Machine
end

