-- ==== Sys2Proof/Machine/Orchestrator.lean ====
section
/-! DEFINITION. The orchestrator: UNSWIZZLE and SWIZZLE (spec/42_orchestrator.md R101 to R109), each two passes through
plane bytes `[0, n)` in one atomic command (R136). -/

namespace Sys2Proof.Machine

/-- Tiled to linear: the 32-bit writer over the scaled rectangle, then the reader of the depth's format over the full
rectangle (R103). -/
def unswizzlePasses (s : State) : State :=
  readerPass s.depthFormat (s.fullPass s.ldst.toNat) (writerPass .f32 (s.scaledPass s.lsrc.toNat) s)

/-- Linear to tiled: the writer of the depth's format over the full rectangle, then the 32-bit reader over the scaled
rectangle (R104). -/
def swizzlePasses (s : State) : State :=
  readerPass .f32 (s.scaledPass s.ldst.toNat) (writerPass s.depthFormat (s.fullPass s.lsrc.toNat) s)

/-- UNSWIZZLE (R103), after the checks of R101. -/
def execUnswizzle (s : State) : Host.Outcome State Fault Refusal :=
  match s.orchestratorCheck with
  | .ok => .next ((unswizzlePasses s).complete .ok)
  | e => .next (s.complete e)

/-- SWIZZLE (R104), after the checks of R101. -/
def execSwizzle (s : State) : Host.Outcome State Fault Refusal :=
  match s.orchestratorCheck with
  | .ok => .next ((swizzlePasses s).complete .ok)
  | e => .next (s.complete e)

end Sys2Proof.Machine
end

