-- ==== Sys2Proof/Machine/Dispatch.lean ====
section
/-! DEFINITION. The meaning of each command of spec/30_encoding.md R47, one arm per constructor of Instr. -/

namespace Sys2Proof.Machine

/-- Executes one command as one atomic step (R136). -/
def exec (i : Instr) (s : State) : Host.Outcome State Fault Refusal :=
  match i with
  | .addr32 => Sys2Proof.Machine.execAddr32 s
  | .addr8 => Sys2Proof.Machine.execAddr8 s
  | .addr4 => Sys2Proof.Machine.execAddr4 s
  | .write32 => Sys2Proof.Machine.execWrite32 s
  | .read32 => Sys2Proof.Machine.execRead32 s
  | .write8 => Sys2Proof.Machine.execWrite8 s
  | .read8 => Sys2Proof.Machine.execRead8 s
  | .write4 => Sys2Proof.Machine.execWrite4 s
  | .read4 => Sys2Proof.Machine.execRead4 s
  | .unswizzle => Sys2Proof.Machine.execUnswizzle s
  | .swizzle => Sys2Proof.Machine.execSwizzle s

end Sys2Proof.Machine
end

