-- ==== Sys2Proof/Machine/HostPort.lean ====
section
/-! DEFINITION. What the outside world does to the engine: register accesses (spec/10_state.md R14 to R24), direct
linear-buffer accesses (R26), reset (spec/70_reset_and_hazards.md R126 to R129), and whose turn it is
(spec/20_memory.md R41). -/

namespace Sys2Proof.Machine

/-- The offset of a register (R14). -/
def regOffset : RegName → Nat
  | .cmd => 0x00
  | .status => 0x04
  | .base => 0x08
  | .bufw => 0x0C
  | .rx => 0x10
  | .ry => 0x14
  | .rw => 0x18
  | .rh => 0x1C
  | .bpp => 0x20
  | .lsrc => 0x24
  | .ldst => 0x28
  | .result => 0x2C

/-- The register at an offset, if there is one (R14, R24). -/
def regAtOffset : Nat → Option RegName
  | 0x00 => some .cmd
  | 0x04 => some .status
  | 0x08 => some .base
  | 0x0C => some .bufw
  | 0x10 => some .rx
  | 0x14 => some .ry
  | 0x18 => some .rw
  | 0x1C => some .rh
  | 0x20 => some .bpp
  | 0x24 => some .lsrc
  | 0x28 => some .ldst
  | 0x2C => some .result
  | _ => none

/-- The value a register reads as: its defined bits, zeros elsewhere; CMD reads 0 (R14, R15). -/
def State.readReg (s : State) : RegName → Word
  | .cmd => 0
  | .status => s.statusWord
  | .base => s.base.setWidth 32
  | .bufw => s.bufw.setWidth 32
  | .rx => s.rx.setWidth 32
  | .ry => s.ry.setWidth 32
  | .rw => s.rw.setWidth 32
  | .rh => s.rh.setWidth 32
  | .bpp => s.bpp.setWidth 32
  | .lsrc => s.lsrc
  | .ldst => s.ldst
  | .result => s.result.setWidth 32

/-- A stored write: the defined bits of a read/write register, nothing for a read-only one (R14). CMD stores nothing
(R15); what a write to it does is `hostCommand`. -/
def State.storeReg (s : State) (r : RegName) (v : Word) : State :=
  match r with
  | .cmd | .status | .result => s
  | .base => { s with base := v.setWidth 14 }
  | .bufw => { s with bufw := v.setWidth 16 }
  | .rx => { s with rx := v.setWidth 16 }
  | .ry => { s with ry := v.setWidth 16 }
  | .rw => { s with rw := v.setWidth 16 }
  | .rh => { s with rh := v.setWidth 16 }
  | .bpp => { s with bpp := v.setWidth 4 }
  | .lsrc => { s with lsrc := v }
  | .ldst => { s with ldst := v }

/-- A command word delivered by a write to CMD (R13, R15): a legal word runs its command, an illegal one ends with
E_OPCODE and no other effect (R116). -/
def hostCommand (w : Word) (s : State) : Host.Outcome State Fault Refusal :=
  match decode w with
  | .ok i => exec i s
  | .error _ => .next (s.complete .opcode)

/-- A host's register write (R24, R52). -/
def hostRegWrite (bits offset : Nat) (v : Word) (s : State) : Host.Outcome State Fault Refusal :=
  if accessAdmitted bits offset then
    match regAtOffset offset with
    | none => .next s
    | some .cmd => hostCommand v s
    | some r => .next (s.storeReg r v)
  else .refused (.accessNotAdmitted bits offset)

/-- Notes down, for the agent at place `h`, what its read has returned. -/
def State.returnTo (s : State) (h : Nat) (x : Seen) : State :=
  match s.agents[h]? with
  | none => s
  | some g => { s with agents := s.agents.set h { g with seen := x :: g.seen } }

/-- The value a read of an offset returns: 0 where no register is (R24). -/
def State.readOffset (s : State) (offset : Nat) : Word :=
  match regAtOffset offset with
  | none => 0
  | some r => s.readReg r

/-- A host's register read (R24, R52). -/
def hostRegRead (h bits offset : Nat) (s : State) : Host.Outcome State Fault Refusal :=
  if accessAdmitted bits offset then .next (s.returnTo h (.reg offset (s.readOffset offset)))
  else .refused (.accessNotAdmitted bits offset)

/-- Do the `n` bytes at an offset exist in the linear buffer (R26)? -/
def State.linearHolds (s : State) (offset n : Nat) : Bool :=
  n = 0 || offset + n ≤ s.lbSize

/-- A host's direct write of the linear buffer (R26, R55). -/
def hostLinearWrite (offset : Nat) (bytes : List Byte) (s : State) : Host.Outcome State Fault Refusal :=
  if s.linearHolds offset bytes.length then .next (s.writeBytes .linear offset bytes)
  else .fault (.hostLinearAbsent offset bytes.length)

/-- A host's direct read of the linear buffer (R26, R55). -/
def hostLinearRead (h offset n : Nat) (s : State) : Host.Outcome State Fault Refusal :=
  if s.linearHolds offset n then .next (s.returnTo h (.lb offset (s.readBytes .linear offset n)))
  else .fault (.hostLinearAbsent offset n)

/-- A reset of the engine: every register 0 (R127), the plane `p` (R128: unspecified, so any; log 6), the linear
buffer and the agents unchanged (R129). -/
def State.takeReset (s : State) (p : List Byte) : State :=
  { s with
    base := 0, bufw := 0, rx := 0, ry := 0, rw := 0, rh := 0, bpp := 0, lsrc := 0, ldst := 0
    err := .ok, sticky := false, result := 0, plane := [], plane0 := p }

/-- One event of the total order (R41), made by the agent at place `h`. -/
def perform (h : Nat) (e : HostEvent) (s : State) : Host.Outcome State Fault Refusal :=
  match e with
  | .regWrite bits offset v => hostRegWrite bits offset v s
  | .regRead bits offset => hostRegRead h bits offset s
  | .lbWrite offset bytes => hostLinearWrite offset bytes s
  | .lbRead offset n => hostLinearRead h offset n s
  | .reset p => .next (s.takeReset p)

/-- What happens next, and the state with that turn and transaction taken off: nothing when no turn is left, or when
the agent whose turn it is has nothing to do (R130; log 4). -/
def State.nextEvent (s : State) : Option (Nat × HostEvent) × State :=
  match s.turns with
  | [] => (none, s)
  | h :: ts =>
    match s.agents[h]? with
    | none => (none, { s with turns := ts })
    | some g =>
      match g.pending with
      | [] => (none, { s with turns := ts })
      | e :: es => (some (h, e), { s with turns := ts, agents := s.agents.set h { g with pending := es } })

/-- One step of the machine: the next event of the total order, or nothing. -/
def machineStep (s : State) : Host.Outcome State Fault Refusal :=
  match s.nextEvent with
  | (none, s') => .next s'
  | (some (h, e), s') => perform h e s'

/-- Put a transaction first: agent 0 makes it at the very next step. -/
def State.withNextEvent (s : State) (e : HostEvent) : State :=
  match s.agents with
  | [] => { s with turns := 0 :: s.turns, agents := [{ pending := [e], seen := [] }] }
  | g :: gs => { s with turns := 0 :: s.turns, agents := { g with pending := e :: g.pending } :: gs }

end Sys2Proof.Machine
end

