-- ==== Sys2Proof/Machine/Step.lean ====
section
/-! DEFINITION. One step of the machine, and how a command word is placed where the next step takes it. -/

namespace Sys2Proof.Machine

/-- One step: one event of the total order (R41), or nothing when no agent acts (R130). -/
def step (s : State) : Host.Outcome State Fault Refusal := machineStep s

/-- The state in which the very next step delivers the command word `w`: there is no fetch (R13, R44), a command
arrives by a host's write to CMD, offset 0x00 (R52; log 8). -/
def State.withFetchWord (s : State) (nbits w : Nat) : State :=
  s.withNextEvent (.regWrite 32 0x00 (BitVec.ofNat 32 (w % 2 ^ nbits)))

end Sys2Proof.Machine
end

