-- ==== Sys2Proof/Machine/Assembly.lean ====
section
/-! DEFINITION. Listings: the transactions a statement stands for (spec/30_encoding.md R54 to R60), the reading of a
listing line, and the line that encodes a transaction. Notation for the hosts; the engine itself reads no text. -/

namespace Sys2Proof.Machine

/-- `SET <REG>, <value>` as a transaction (R54). -/
def setEvent (r : RegName) (v : Word) : HostEvent := .regWrite 32 (regOffset r) v

/-- `GET <REG>` as a transaction (R54). -/
def getEvent (r : RegName) : HostEvent := .regRead 32 (regOffset r)

/-- A mnemonic alone as a transaction: the write `(0x00, OP)` (R52, R54). -/
def commandEvent (i : Instr) : HostEvent := .regWrite 32 0x00 (encode i)

/-- The ADDR command of a format (R57). -/
def addressInstr : Format → Instr
  | .f32 => .addr32
  | .f8 => .addr8
  | .f4 => .addr4

/-- The expansion of `RECT x, y, w, h` (R56). -/
def rectEvents (x y w h : Word) : List HostEvent :=
  [setEvent .rx x, setEvent .ry y, setEvent .rw w, setEvent .rh h]

/-- The expansion of `UNSWZ` and `SWZ` (R58). -/
def orchestratorEvents (i : Instr) (bpp width height src dst : Word) : List HostEvent :=
  [setEvent .rw width, setEvent .rh height, setEvent .bpp bpp, setEvent .lsrc src, setEvent .ldst dst,
    commandEvent i, getEvent .status]

/-- The transactions of a statement (R54 to R58). -/
def stmtEvents : Stmt → List HostEvent
  | .set r v => [setEvent r v]
  | .get r => [getEvent r]
  | .op i => [commandEvent i]
  | .cmd v => [.regWrite 32 0x00 v]
  | .lbw offset bytes => [.lbWrite offset bytes]
  | .lbr offset n => [.lbRead offset n]
  | .rect x y w h => rectEvents x y w h
  | .addrAt f x y => [setEvent .rx x, setEvent .ry y, commandEvent (addressInstr f), getEvent .result]
  | .unswz bpp width height src dst => orchestratorEvents .unswizzle bpp width height src dst
  | .swz bpp width height src dst => orchestratorEvents .swizzle bpp width height src dst

/-- The transactions of a listing: "a program is straight-line" (R59). -/
def listingEvents (ss : List Stmt) : List HostEvent := ss.flatMap stmtEvents

/-- The value of a digit of base 16, upper or lower case. -/
def digitValue (c : Char) : Option Nat :=
  if '0'.toNat ≤ c.toNat ∧ c.toNat ≤ '9'.toNat then some (c.toNat - '0'.toNat)
  else if 'A'.toNat ≤ c.toNat ∧ c.toNat ≤ 'F'.toNat then some (c.toNat - 'A'.toNat + 10)
  else if 'a'.toNat ≤ c.toNat ∧ c.toNat ≤ 'f'.toNat then some (c.toNat - 'a'.toNat + 10)
  else none

/-- The value of digits of a base after those already read. -/
def digitsValue (base acc : Nat) : List Char → Option Nat
  | [] => some acc
  | c :: cs =>
    match digitValue c with
    | none => none
    | some d => if d < base then digitsValue base (acc * base + d) cs else none

/-- A number of a listing: decimal, or hexadecimal after `0x` (R54). -/
def numberValue : List Char → Option Nat
  | [] => none
  | '0' :: 'x' :: c :: cs => digitsValue 16 0 (c :: cs)
  | c :: cs => digitsValue 10 0 (c :: cs)

/-- A 32-bit value of a listing. -/
def wordValue (cs : List Char) : Option Word :=
  match numberValue cs with
  | none => none
  | some n => if n < 2 ^ 32 then some (BitVec.ofNat 32 n) else none

/-- A byte of an `LBW` statement: two hexadecimal digits, as in the listings of spec/95_test_vectors.md (log 11). -/
def byteValue : List Char → Option Byte
  | [c, d] => (digitsValue 16 0 [c, d]).map (BitVec.ofNat 8)
  | _ => none

/-- All bytes of an `LBW` statement, or none of them. -/
def byteValues : List (List Char) → Option (List Byte)
  | [] => some []
  | t :: ts =>
    match byteValue t, byteValues ts with
    | some b, some bs => some (b :: bs)
    | _, _ => none

/-- The words of a line, split at spaces and commas, up to a comment (R54); `cur` holds the word being read,
last character first. -/
def lineWords (cur : List Char) : List Char → List (List Char)
  | [] => if cur.isEmpty then [] else [cur.reverse]
  | c :: cs =>
    if c = ';' then (if cur.isEmpty then [] else [cur.reverse])
    else if c = ' ' ∨ c = ',' then
      (if cur.isEmpty then lineWords [] cs else cur.reverse :: lineWords [] cs)
    else lineWords (c :: cur) cs

/-- A register name in a listing (R14). -/
def regNamed (t : List Char) : Option RegName :=
  if t = "CMD".toList then some .cmd
  else if t = "STATUS".toList then some .status
  else if t = "BASE".toList then some .base
  else if t = "BUFW".toList then some .bufw
  else if t = "RX".toList then some .rx
  else if t = "RY".toList then some .ry
  else if t = "RW".toList then some .rw
  else if t = "RH".toList then some .rh
  else if t = "BPP".toList then some .bpp
  else if t = "LSRC".toList then some .lsrc
  else if t = "LDST".toList then some .ldst
  else if t = "RESULT".toList then some .result
  else none

/-- A mnemonic of R47. -/
def instrNamed (t : List Char) : Option Instr :=
  if t = "ADDR32".toList then some .addr32
  else if t = "ADDR8".toList then some .addr8
  else if t = "ADDR4".toList then some .addr4
  else if t = "WRITE32".toList then some .write32
  else if t = "READ32".toList then some .read32
  else if t = "WRITE8".toList then some .write8
  else if t = "READ8".toList then some .read8
  else if t = "WRITE4".toList then some .write4
  else if t = "READ4".toList then some .read4
  else if t = "UNSWIZZLE".toList then some .unswizzle
  else if t = "SWIZZLE".toList then some .swizzle
  else none

/-- The format of an `ADDRn.AT` pseudo-instruction (R57). -/
def addrAtNamed (t : List Char) : Option Format :=
  if t = "ADDR32.AT".toList then some .f32
  else if t = "ADDR8.AT".toList then some .f8
  else if t = "ADDR4.AT".toList then some .f4
  else none

/-- The statement of a line's words, if they are one (R54 to R58). -/
def wordsStmt : List (List Char) → Option Stmt
  | [m] => (instrNamed m).map .op
  | [m, a] =>
    if m = "GET".toList then (regNamed a).map .get
    else if m = "CMD".toList then (wordValue a).map .cmd
    else if m = "LBW".toList then (numberValue a).map fun o => .lbw o []
    else none
  | m :: a :: b :: rest =>
    if m = "SET".toList ∧ rest.isEmpty then
      match regNamed a, wordValue b with
      | some r, some v => if r.settable then some (.set r v) else none
      | _, _ => none
    else if m = "LBW".toList then
      match numberValue a, byteValues (b :: rest) with
      | some o, some bs => some (.lbw o bs)
      | _, _ => none
    else if m = "LBR".toList ∧ rest.isEmpty then
      match numberValue a, numberValue b with
      | some o, some n => some (.lbr o n)
      | _, _ => none
    else
      match addrAtNamed m, wordValue a, wordValue b, rest with
      | some f, some x, some y, [] => some (.addrAt f x y)
      | none, some x, some y, [c, d] =>
        if m = "RECT".toList then
          match wordValue c, wordValue d with
          | some w, some h => some (.rect x y w h)
          | _, _ => none
        else none
      | none, some x, some y, [c, d, e] =>
        match wordValue c, wordValue d, wordValue e with
        | some z, some src, some dst =>
          if m = "UNSWZ".toList then some (.unswz x y z src dst)
          else if m = "SWZ".toList then some (.swz x y z src dst)
          else none
        | _, _, _ => none
      | _, _, _, _ => none
  | [] => none

/-- The statement of a listing line, if it is one; a blank line or a comment is none (R54). -/
def readLine (line : List Char) : Option Stmt := wordsStmt (lineWords [] line)

/-- A hexadecimal digit, upper case. -/
def hexDigit (n : Nat) : Char :=
  if n < 10 then Char.ofNat ('0'.toNat + n) else Char.ofNat ('A'.toNat + (n - 10))

/-- The `d` low hexadecimal digits of a number. -/
def hexDigits : Nat → Nat → List Char
  | 0, _ => []
  | d + 1, n => hexDigits d (n / 16) ++ [hexDigit (n % 16)]

/-- An offset in a listing: two digits, or four above 0xFF. -/
def offsetDigits (offset : Nat) : List Char :=
  hexDigits (if offset < 256 then 2 else 4) offset

/-- The line that encodes a transaction: `W off=0x.. val=0x........`, `R off=0x..`, or `host` (R60). -/
def listingLine : HostEvent → List Char
  | .regWrite _ offset v =>
    "W off=0x".toList ++ offsetDigits offset ++ " val=0x".toList ++ hexDigits 8 v.toNat
  | .regRead _ offset => "R off=0x".toList ++ offsetDigits offset
  | .lbWrite _ _ => "host".toList
  | .lbRead _ _ => "host".toList
  | .reset _ => "reset".toList

end Sys2Proof.Machine
end

