-- ==== Sys2Proof/Safety.lean ====
section
/-! DEFINITION. What counts as a good state and a safe run, in the terms the statements use. -/

namespace Sys2Proof.Machine

/-- Both memories are in canonical form: addresses rising and inside the memory, no entry equal to the first
content. -/
abbrev State.MemoryCanonical (s : State) : Prop :=
  s.plane.wf (s.initial .plane) Config.planeSize ∧ s.linear.wf (s.initial .linear) s.lbSize

/-- An error in STATUS.ERR has set STATUS.STICKY (R113). -/
abbrev State.StatusConsistent (s : State) : Prop :=
  s.err ≠ .ok → s.sticky = true

/-- The invariant of the machine. -/
abbrev State.Inv (s : State) : Prop :=
  s.MemoryCanonical ∧ s.StatusConsistent

/-- A transaction that the interface admits for a linear buffer of `lbSize` bytes: a 32-bit aligned register access
(R24), a linear-buffer access inside the buffer (R26), or a reset. -/
def admitted (lbSize : Nat) (e : HostEvent) : Bool :=
  e.wf && match e with
    | .lbWrite offset bytes => bytes.length = 0 || offset + bytes.length ≤ lbSize
    | .lbRead offset n => n = 0 || offset + n ≤ lbSize
    | .regWrite _ _ _ | .regRead _ _ | .reset _ => true

/-- Every transaction the agents have still to make is admitted. -/
abbrev State.Admitted (s : State) : Prop :=
  ∀ g ∈ s.agents, ∀ e ∈ g.pending, admitted s.lbSize e = true

/-- The command word the next step delivers, if it delivers one. -/
def State.commandDelivered (s : State) : Option Word :=
  match s.nextEvent.1 with
  | some (_, .regWrite bits offset w) => if bits = 32 ∧ offset = 0 then some w else none
  | _ => none

/-- Is the next step a reset? -/
def State.resetDelivered (s : State) : Bool :=
  match s.nextEvent.1 with
  | some (_, .reset _) => true
  | _ => false

/-- A command that ended with error `e` and changed STATUS alone (R113, R120). -/
def State.failedWith (s : State) (e : ErrorCode) : State :=
  { s with err := e, sticky := true }

/-- Where a pixel of a format can lie: a whole word, a byte, or a nibble half of a byte (R67). Within one page
`addressOf` is a bijection onto these places (R77). -/
def isPlace (f : Format) (offset half : Nat) : Prop :=
  match f with
  | .f32 => offset % 4 = 0 ∧ half = 0
  | .f8 => half = 0
  | .f4 => half < 2

/-- The `k`-th pixel of a rectangle in linear order (R87), `x` first. -/
def Pass.pixelAt (p : Pass) (k : Nat) : Nat × Nat :=
  (p.x0 + k % p.w, p.y0 + k / p.w)

/-- The address of the `k`-th pixel of a rectangle (R86, R87). -/
def Pass.addressAt (p : Pass) (f : Format) (k : Nat) : PixelAddr :=
  addressOf f p.base p.bufw (p.x0 + k % p.w) (p.y0 + k / p.w)

/-! ### The terms of the statements -/

/-- The nine read/write registers of R14: name, offset, defined bits. -/
def parameterRegisters : List (RegName × Nat × Word) :=
  [(.base, 0x08, 0x3FFF), (.bufw, 0x0C, 0xFFFF), (.rx, 0x10, 0xFFFF), (.ry, 0x14, 0xFFFF), (.rw, 0x18, 0xFFFF),
   (.rh, 0x1C, 0xFFFF), (.bpp, 0x20, 0xF), (.lsrc, 0x24, 0xFFFFFFFF), (.ldst, 0x28, 0xFFFFFFFF)]

/-- `N = w * h` of a WRITE or READ command (R86). -/
def State.pixelCount (s : State) : Nat := s.rw.toNat * s.rh.toNat

/-- The address of the `k`-th pixel of a WRITE or READ command's rectangle (R86, R87). -/
def State.rectAddress (s : State) (f : Format) (k : Nat) : PixelAddr :=
  addressOf f s.base.toNat s.bufw.toNat (s.rx.toNat + k % s.rw.toNat) (s.ry.toNat + k / s.rw.toNat)

/-- The checks of R86 pass: every pixel in the plane, the linear range in the linear buffer if it is not empty. -/
abbrev State.TransferFits (s : State) (f : Format) (lin : Nat) : Prop :=
  (∀ k < s.pixelCount, (s.rectAddress f k).offset < 4194304) ∧
  (0 < linearLength f s.pixelCount → lin + linearLength f s.pixelCount ≤ s.lbSize)

/-- What a WRITE or READ command `i` does when a check of R86 fails: E_RANGE before E_LINEAR (R121), STATUS alone
changed (R120). -/
def State.TransferErrors (s : State) (i : Instr) (f : Format) (lin : Nat) : Prop :=
  ((∃ k < s.pixelCount, 4194304 ≤ (s.rectAddress f k).offset) → exec i s = .next (s.failedWith .range)) ∧
  ((∀ k < s.pixelCount, (s.rectAddress f k).offset < 4194304) → 0 < linearLength f s.pixelCount →
    s.lbSize < lin + linearLength f s.pixelCount → exec i s = .next (s.failedWith .linear))

/-- The sizes and depths UNSWIZZLE and SWIZZLE take (R101, R117). -/
abbrev State.SizesLegal (s : State) : Prop :=
  (s.bpp.toNat = 4 ∨ s.bpp.toNat = 8) ∧ s.rw.toNat ≠ 0 ∧ s.rh.toNat ≠ 0 ∧
    s.rw.toNat % 128 = 0 ∧ s.rh.toNat % 128 = 0

/-- The checks of R101 pass. -/
structure State.OrchestratorFits (s : State) : Prop where
  sizes : s.SizesLegal
  inPlane : s.streamLength ≤ 4194304
  source : s.lsrc.toNat + s.streamLength ≤ s.lbSize
  destination : s.ldst.toNat + s.streamLength ≤ s.lbSize

/-- What UNSWIZZLE or SWIZZLE does when a check of R101 fails, in the order of R121, STATUS alone changed (R120). -/
def State.OrchestratorErrors (s : State) (i : Instr) : Prop :=
  (¬ s.SizesLegal → exec i s = .next (s.failedWith .geometry)) ∧
  (s.SizesLegal → 4194304 < s.streamLength → exec i s = .next (s.failedWith .range)) ∧
  (s.SizesLegal → s.streamLength ≤ 4194304 →
    (s.lbSize < s.lsrc.toNat + s.streamLength ∨ s.lbSize < s.ldst.toNat + s.streamLength) →
    exec i s = .next (s.failedWith .linear))

/-- The address, in the full pass of the orchestrator, of the `k`-th pixel of the image (R102). -/
def State.imageAddress (s : State) (k : Nat) : PixelAddr :=
  addressOf s.depthFormat 0 (s.rw.toNat / 128) (k % s.rw.toNat) (k / s.rw.toNat)

/-- The height of the scaled rectangle (R102). -/
def State.scaledHeight (s : State) : Nat :=
  if s.bpp.toNat = 8 then s.rh.toNat / 2 else s.rh.toNat / 4

/-- The plane offset, in the scaled pass of the orchestrator, of the `j`-th F32 pixel (R102). -/
def State.scaledOffset (s : State) (j : Nat) : Nat :=
  (addressOf .f32 0 (s.rw.toNat / 128) (j % (s.rw.toNat / 2)) (j / (s.rw.toNat / 2))).offset

end Sys2Proof.Machine
end

