-- ==== Sys2Proof/Certificates/Slice0/Obligations.lean ====
section
/-! DEFINITION. The statements for the provers, in the order of spec/: reset and registers, decoding and the step, the
address engine, the transfers, the orchestrator, errors and STATUS, whole-machine rules. -/

open Sys2Proof Sys2Proof.Machine

/-! ### Reset, registers, host accesses -/

/-- R127: after reset every register of the window reads 0. -/
def Obligations.EveryRegisterResetsToZero : Prop :=
  ∀ r : RegName, State.reset.readReg r = 0

/-- R127, R129: a reset event clears every register and leaves the linear buffer as it is. That the agents' remaining
transactions and the turns stay is the model's choice (log 6). -/
def Obligations.ResetClearsRegistersKeepsLinear : Prop :=
  ∀ (h : Nat) (p : List Byte) (s : State), ∃ t, perform h (.reset p) s = .next t ∧
    (∀ r, t.readReg r = 0) ∧ (∀ a, t.readByte .linear a = s.readByte .linear a) ∧
    t.lbSize = s.lbSize ∧ t.agents = s.agents ∧ t.turns = s.turns

/-- R128 leaves the plane's content after a reset unspecified. The model's choice (log 6): the reset event carries it,
so every content is possible, among them the one before the reset. -/
def Obligations.ResetLeavesAnyPlaneContent : Prop :=
  ∀ (h : Nat) (s : State) (content : List Byte),
    ∃ t, perform h (.reset content) s = .next t ∧ ∀ a, t.readByte .plane a = content.getD a 0

/-- R14: a write to one of the nine read/write registers stores its defined bits, reserved bits read 0, and nothing else
changes; a write to a read-only register is ignored. -/
def Obligations.RegisterWriteStoresDefinedBits : Prop :=
  (∀ row ∈ parameterRegisters, ∀ (h : Nat) (v : Word) (s : State),
    ∃ t, perform h (.regWrite 32 row.2.1 v) s = .next t ∧
      t.readReg row.1 = v &&& row.2.2 ∧ (∀ r, r ≠ row.1 → t.readReg r = s.readReg r) ∧
      t.plane = s.plane ∧ t.linear = s.linear ∧ t.plane0 = s.plane0 ∧ t.lb0 = s.lb0 ∧
      t.lbSize = s.lbSize ∧ t.agents = s.agents ∧ t.turns = s.turns) ∧
  (∀ (h : Nat) (v : Word) (s : State), perform h (.regWrite 32 0x04 v) s = .next s ∧
    perform h (.regWrite 32 0x2C v) s = .next s)

/-- R38, R52: a register read returns to the reading host the register's value and changes nothing else. CMD reads 0
(R15). That the value is kept in the host's record is the model's form (log 5). -/
def Obligations.RegisterReadReturnsValueOnly : Prop :=
  ∀ (h : Nat) (s : State) (g : Agent), s.agents[h]? = some g →
    ∀ row ∈ (RegName.cmd, 0x00, 0) :: (RegName.status, 0x04, 0x10F) :: (RegName.result, 0x2C, 0x7FFFFF) ::
        parameterRegisters,
      perform h (.regRead 32 row.2.1) s =
        .next { s with agents := s.agents.set h { g with seen := .reg row.2.1 (s.readReg row.1) :: g.seen } } ∧
      s.readReg row.1 &&& ~~~ row.2.2 = 0

/-- R24: an offset that holds no register reads 0 and ignores writes; an access that is not 32 bits wide or not at a
multiple of 4 is refused. That a returned value is kept in the host's record is the model's form (log 5). -/
def Obligations.OffMapOffsetsAndRefusedAccesses : Prop :=
  (∀ (h offset : Nat) (v : Word) (s : State) (g : Agent), s.agents[h]? = some g → offset % 4 = 0 → 0x30 ≤ offset →
    perform h (.regWrite 32 offset v) s = .next s ∧
    perform h (.regRead 32 offset) s =
      .next { s with agents := s.agents.set h { g with seen := .reg offset 0 :: g.seen } }) ∧
  (∀ (h bits offset : Nat) (v : Word) (s : State), (bits < 32 ∨ offset % 4 ≠ 0) →
    perform h (.regWrite bits offset v) s = .refused (.accessNotAdmitted bits offset) ∧
    perform h (.regRead bits offset) s = .refused (.accessNotAdmitted bits offset))

/-- R26, R55: a host's direct write inside the linear buffer stores its bytes in order and changes nothing else; a
direct read returns the bytes. That they are put at the head of the host's record is the model's choice (log 5). -/
def Obligations.HostReadsAndWritesLinearBytes : Prop :=
  ∀ (h offset : Nat) (bytes : List Byte) (n : Nat) (s : State) (g : Agent), s.agents[h]? = some g →
    (offset + bytes.length ≤ s.lbSize →
      ∃ t, perform h (.lbWrite offset bytes) s = .next t ∧ t = { s with linear := t.linear } ∧
        (∀ i < bytes.length, t.readByte .linear (offset + i) = bytes.getD i 0) ∧
        (∀ a, a < offset ∨ offset + bytes.length ≤ a → t.readByte .linear a = s.readByte .linear a)) ∧
    (offset + n ≤ s.lbSize →
      ∃ bs : List Byte, bs.length = n ∧ (∀ i < n, bs.getD i 0 = s.readByte .linear (offset + i)) ∧
        perform h (.lbRead offset n) s =
          .next { s with agents := s.agents.set h { g with seen := .lb offset bs :: g.seen } })

/-- The model's choice (log 7): a host access to a linear byte at or above LB_SIZE, which R26 says does not exist,
faults. -/
def Obligations.HostLinearAccessOutsideFaults : Prop :=
  ∀ (h offset : Nat) (bytes : List Byte) (n : Nat) (s : State),
    (bytes ≠ [] → s.lbSize < offset + bytes.length →
      perform h (.lbWrite offset bytes) s = .fault (.hostLinearAbsent offset bytes.length)) ∧
    (0 < n → s.lbSize < offset + n → perform h (.lbRead offset n) s = .fault (.hostLinearAbsent offset n))

/-! ### Decoding and the step -/

/-- R47: the eleven words of the opcode map, and the reserved ones, written out. -/
def Obligations.OpcodeMapWords : Prop :=
  decode 0x00000001 = .ok .addr32 ∧ decode 0x00000002 = .ok .addr8 ∧ decode 0x00000003 = .ok .addr4 ∧
  decode 0x00000004 = .ok .write32 ∧ decode 0x00000005 = .ok .read32 ∧ decode 0x00000006 = .ok .write8 ∧
  decode 0x00000007 = .ok .read8 ∧ decode 0x00000008 = .ok .write4 ∧ decode 0x00000009 = .ok .read4 ∧
  decode 0x0000000A = .ok .unswizzle ∧ decode 0x0000000B = .ok .swizzle ∧
  (∀ op ∈ [0x0, 0xC, 0xD, 0xE, 0xF], decode (BitVec.ofNat 32 op) = .error (.reservedOp op))

/-- R48: each legal command has exactly one encoding, its OP, in both directions; a word with a bit of bits[31:4] set is
illegal whatever its OP, and ends with E_OPCODE and no other effect. -/
def Obligations.EachCommandHasExactlyOneWord : Prop :=
  (∀ (w : Word) (i : Instr), decode w = .ok i ↔ w = encode i) ∧
  (∀ i : Instr, (encode i).toNat = (opcode i).toNat) ∧
  (∀ (w : Word) (s : State), w.toNat / 16 ≠ 0 → hostCommand w s = .next (s.failedWith .opcode))

/-- R49, R116: a word whose OP is 0x0 or 0xC..0xF ends with E_OPCODE and no other effect. -/
def Obligations.ReservedOpsRaiseOpcodeError : Prop :=
  ∀ (w : Word) (s : State), (w.toNat / 16 ≠ 0 ∨ w.toNat % 16 = 0 ∨ 12 ≤ w.toNat % 16) →
    hostCommand w s = .next (s.failedWith .opcode)

/-- R50: every 32-bit value is the word of a command, which it runs, or illegal. -/
def Obligations.EveryWordIsACommandOrIllegal : Prop :=
  ∀ w : Word, (∃ i, w = encode i ∧ ∀ s, hostCommand w s = exec i s) ∨
    (∀ i, w ≠ encode i) ∧ ∀ s, hostCommand w s = .next (s.failedWith .opcode)

/-- A step takes the first pending transaction of the host whose turn it is (R41; log 4). -/
def Obligations.StepTakesTheTurnsFirstTransaction : Prop :=
  ∀ (s : State) (h : Nat) (ts : List Nat) (g : Agent) (e : HostEvent) (es : List HostEvent),
    s.turns = h :: ts → s.agents[h]? = some g → g.pending = e :: es →
    step s = perform h e { s with turns := ts, agents := s.agents.set h { g with pending := es } }

/-- When the next transaction writes a word to CMD, the step is the command it decodes to, at the state with the turn and
the transaction taken off; a word that decodes to none ends there with E_OPCODE (R13, R15, R116). That a step takes the
first transaction of the host at the head of the turns, and takes both off before the command, is the model's choice
(log 4). -/
def Obligations.StepRunsTheDecodedCommand : Prop :=
  ∀ (s : State) (h : Nat) (ts : List Nat) (g : Agent) (w : Word) (es : List HostEvent),
    s.turns = h :: ts → s.agents[h]? = some g → g.pending = .regWrite 32 0x00 w :: es →
    let u := { s with turns := ts, agents := s.agents.set h { g with pending := es } }
    (∀ i, decode w = .ok i → step s = exec i u) ∧
    (∀ r, decode w = .error r → step s = .next (u.failedWith .opcode))

/-- A word placed by withFetchWord is delivered to CMD at the very next step, in the state it was placed in (log 8). -/
def Obligations.PlacedWordIsDeliveredNext : Prop :=
  ∀ (s : State) (w : Word), s.agents ≠ [] → step (s.withFetchWord 32 w.toNat) = hostCommand w s

/-- Whatever a step that is neither a command nor a reset does, STATUS, RESULT and the plane stay (R16, R23, R25). That a
step with no turn left changes nothing is the model's choice (log 4). -/
def Obligations.OnlyCommandsAndResetTouchEngineResults : Prop :=
  (∀ s : State, s.turns = [] → step s = .next s) ∧
  (∀ s t : State, step s = .next t → s.commandDelivered = none → s.resetDelivered = false →
    t.err = s.err ∧ t.sticky = s.sticky ∧ t.result = s.result ∧ t.plane = s.plane ∧ t.plane0 = s.plane0)

/-! ### The address engine -/

/-- R78, R81: ADDR32 writes the address of the formula to RESULT, or raises E_RANGE; nothing else but STATUS changes. -/
def Obligations.Addr32WritesResultOrRaisesRange : Prop :=
  ∀ s : State,
    let bp := s.base.toNat
    let BW := s.bufw.toNat
    let x := s.rx.toNat
    let y := s.ry.toNat
    let page := x / 64 + y / 32 * BW
    let px := x % 64
    let py := y % 32
    let block := block32.getD (px / 8 + py / 8 * 8) 0
    let bx := px % 8
    let yb := py % 8
    let column := yb / 2
    let cw := colWord32.getD (bx + yb % 2 * 8) 0
    let W := bp * 64 + page * 2048 + block * 64 + column * 16 + cw
    let off := 4 * W
    (off < 4194304 → exec .addr32 s = .next { s with result := BitVec.ofNat 23 off, err := .ok }) ∧
    (4194304 ≤ off → exec .addr32 s = .next (s.failedWith .range))

/-- R79, R82: the same for ADDR8. -/
def Obligations.Addr8WritesResultOrRaisesRange : Prop :=
  ∀ s : State,
    let bp := s.base.toNat
    let BW := s.bufw.toNat
    let x := s.rx.toNat
    let y := s.ry.toNat
    let page := x / 128 + y / 64 * BW
    let px := x % 128
    let py := y % 64
    let block := block8.getD (px / 16 + py / 16 * 8) 0
    let bx := px % 16
    let yb := py % 16
    let column := yb / 4
    let ci := bx + yb % 4 * 16
    let cw := (if column % 2 = 0 then colWord8Even else colWord8Odd).getD ci 0
    let sel := colByte8.getD ci 0
    let W := bp * 64 + page * 2048 + block * 64 + column * 16 + cw
    let off := 4 * W + sel
    (off < 4194304 → exec .addr8 s = .next { s with result := BitVec.ofNat 23 off, err := .ok }) ∧
    (4194304 ≤ off → exec .addr8 s = .next (s.failedWith .range))

/-- R80, R83: the same for ADDR4, with the nibble half in bit 22 of RESULT. -/
def Obligations.Addr4WritesResultOrRaisesRange : Prop :=
  ∀ s : State,
    let bp := s.base.toNat
    let BW := s.bufw.toNat
    let x := s.rx.toNat
    let y := s.ry.toNat
    let page := x / 128 + y / 128 * BW
    let px := x % 128
    let py := y % 128
    let block := block4.getD (px / 32 + py / 16 * 4) 0
    let bx := px % 32
    let yb := py % 16
    let column := yb / 4
    let ci := bx + yb % 4 * 32
    let cw := (if column % 2 = 0 then colWord4Even else colWord4Odd).getD ci 0
    let nib := colByte4.getD ci 0
    let W := bp * 64 + page * 2048 + block * 64 + column * 16 + cw
    let off := 4 * W + nib / 2
    (off < 4194304 →
      exec .addr4 s = .next { s with result := BitVec.ofNat 23 (off + nib % 2 * 4194304), err := .ok }) ∧
    (4194304 ≤ off → exec .addr4 s = .next (s.failedWith .range))

/-- R76: the tables equal the bit formulas, entry for entry. -/
def Obligations.TablesEqualClosedForms : Prop :=
  (∀ bx < 8, ∀ y < 4, block32.getD (bx + 8 * y) 0 =
      bx % 2 + 2 * (y % 2) + 4 * (bx / 2 % 2) + 8 * (y / 2 % 2) + 16 * (bx / 4 % 2) ∧
    block8.getD (bx + 8 * y) 0 = block32.getD (bx + 8 * y) 0) ∧
  (∀ bx < 4, ∀ y < 8, block4.getD (bx + 4 * y) 0 =
      y % 2 + 2 * (bx % 2) + 4 * (y / 2 % 2) + 8 * (bx / 2 % 2) + 16 * (y / 4 % 2)) ∧
  (∀ cx < 8, ∀ cy < 2, colWord32.getD (cx + 8 * cy) 0 =
      cx % 2 + 2 * (cy % 2) + 4 * (cx / 2 % 2) + 8 * (cx / 4 % 2)) ∧
  (∀ cx < 16, ∀ cy < 4,
    colWord8Even.getD (cx + 16 * cy) 0 =
      cx % 2 + 2 * (cy % 2) + 4 * (cx / 2 % 2) + 8 * ((cx / 4 + cy / 2) % 2) ∧
    colWord8Odd.getD (cx + 16 * cy) 0 =
      cx % 2 + 2 * (cy % 2) + 4 * (cx / 2 % 2) + 8 * ((cx / 4 + cy / 2 + 1) % 2) ∧
    colByte8.getD (cx + 16 * cy) 0 = cy / 2 % 2 + 2 * (cx / 8 % 2)) ∧
  (∀ cx < 32, ∀ cy < 4,
    colWord4Even.getD (cx + 32 * cy) 0 =
      cx % 2 + 2 * (cy % 2) + 4 * (cx / 2 % 2) + 8 * ((cx / 4 + cy / 2) % 2) ∧
    colWord4Odd.getD (cx + 32 * cy) 0 =
      cx % 2 + 2 * (cy % 2) + 4 * (cx / 2 % 2) + 8 * ((cx / 4 + cy / 2 + 1) % 2) ∧
    colByte4.getD (cx + 32 * cy) 0 = cy / 2 % 2 + 2 * (cx / 8 % 2) + 4 * (cx / 16 % 2))

/-- R77: the block tables are permutations of 0..31 and COLWORD32 of 0..15; the pairs of a column word and its selector
take every value exactly once, for each column parity. -/
def Obligations.TablesArePermutations : Prop :=
  (∀ t ∈ [block32, block8, block4], t.length = 32 ∧ t.Nodup ∧ ∀ v ∈ t, v < 32) ∧
  (colWord32.length = 16 ∧ colWord32.Nodup ∧ ∀ v ∈ colWord32, v < 16) ∧
  (∀ t ∈ [colWord8Even, colWord8Odd],
    t.length = 64 ∧ colByte8.length = 64 ∧ (t.zip colByte8).Nodup ∧ ∀ q ∈ t.zip colByte8, q.1 < 16 ∧ q.2 < 4) ∧
  (∀ t ∈ [colWord4Even, colWord4Odd],
    t.length = 128 ∧ colByte4.length = 128 ∧ (t.zip colByte4).Nodup ∧ ∀ q ∈ t.zip colByte4, q.1 < 16 ∧ q.2 < 8)

/-- R77: within one page `addressOf_F` is a bijection from the page's pixels onto the page's words (F32), bytes (F8) or
nibbles (F4): every place of page `X + Y * bw` is the address of exactly one pixel of the page. -/
def Obligations.PageAddressesAreABijection : Prop :=
  ∀ (f : Format) (bp bw X Y off half : Nat), off < 8192 →
    isPlace f off half →
    ∃ x y, x < (geometry f).pageW ∧ y < (geometry f).pageH ∧
      addressOf f bp bw (X * (geometry f).pageW + x) (Y * (geometry f).pageH + y) =
        { offset := bp * 256 + (X + Y * bw) * 8192 + off, half := half } ∧
      ∀ x' y', x' < (geometry f).pageW → y' < (geometry f).pageH →
        addressOf f bp bw (X * (geometry f).pageW + x') (Y * (geometry f).pageH + y') =
          { offset := bp * 256 + (X + Y * bw) * 8192 + off, half := half } → x' = x ∧ y' = y

/-- R84: in every format a pixel of page `page` lies in words `bp·64 + page·2048 .. + 2047`, and the last of them is
reached. -/
def Obligations.PageFootprintIsTheSameInEveryFormat : Prop :=
  ∀ (f : Format) (bp bw x y : Nat),
    bp * 64 + pageOf f bw x y * 2048 ≤ wordIndex f bp bw x y ∧
    wordIndex f bp bw x y ≤ bp * 64 + pageOf f bw x y * 2048 + 2047 ∧
    wordIndex f bp bw (x / (geometry f).pageW * (geometry f).pageW + ((geometry f).pageW - 1))
      (y / (geometry f).pageH * (geometry f).pageH + ((geometry f).pageH - 1)) =
        bp * 64 + pageOf f bw x y * 2048 + 2047

/-- R37: F32 addresses are multiples of 4 with selector 0; the half of F8 is 0 and that of F4 a nibble half. -/
def Obligations.PlaneAddressesAreAligned : Prop :=
  ∀ bp bw x y : Nat, (addressOf .f32 bp bw x y).offset % 4 = 0 ∧ (addressOf .f32 bp bw x y).half = 0 ∧
    (addressOf .f8 bp bw x y).half = 0 ∧ (addressOf .f4 bp bw x y).half < 2

/-- R85: a pixel past the buffer's width is the pixel one buffer row of pages below it, and with buffer width 0 every
page row is row 0. -/
def Obligations.PixelsOutsideTheBufferWidthAlias : Prop :=
  ∀ (f : Format) (bp bw x y n : Nat),
    addressOf f bp bw (x + (geometry f).pageW * bw) y = addressOf f bp bw x (y + (geometry f).pageH) ∧
    addressOf f bp 0 x (y + n * (geometry f).pageH) = addressOf f bp 0 x y

/-- R100: a rectangle of `P` by `Q` whole pages from the origin, in a buffer `P` pages wide, covers plane bytes
`[256·bp, 256·bp + P·Q·8192)` one to one. -/
def Obligations.WholePageRectanglesCoverOneToOne : Prop :=
  ∀ (f : Format) (bp P Q : Nat),
    (∀ x y, x < P * (geometry f).pageW → y < Q * (geometry f).pageH →
      256 * bp ≤ (addressOf f bp P x y).offset ∧ (addressOf f bp P x y).offset < 256 * bp + P * Q * 8192) ∧
    (∀ off half, off < P * Q * 8192 →
      isPlace f off half →
      ∃ x y, x < P * (geometry f).pageW ∧ y < Q * (geometry f).pageH ∧
        addressOf f bp P x y = { offset := 256 * bp + off, half := half } ∧
        ∀ x' y', x' < P * (geometry f).pageW → y' < Q * (geometry f).pageH →
          addressOf f bp P x' y' = { offset := 256 * bp + off, half := half } → x' = x ∧ y' = y)

/-- R99: the four bytes of an F32 pixel are four F8 pixels, and its eight nibbles eight F4 pixels, of the same page
number. -/
def Obligations.OneWordIsFourBytePixelsAndEightNibblePixels : Prop :=
  ∀ (bp bw x y i h : Nat), i < 4 → h < 2 →
    (∃ x' y', pageOf .f8 bw x' y' = pageOf .f32 bw x y ∧
      addressOf .f8 bp bw x' y' = { offset := (addressOf .f32 bp bw x y).offset + i, half := 0 }) ∧
    (∃ x' y', pageOf .f4 bw x' y' = pageOf .f32 bw x y ∧
      addressOf .f4 bp bw x' y' = { offset := (addressOf .f32 bp bw x y).offset + i, half := h })

/-! ### Writers and readers -/

/-- R90, R89: WRITE32 stores the linear words of the rectangle, the last pixel at an address winning; every other plane
byte, and everything but STATUS.ERR, is unchanged. -/
def Obligations.Write32StoresTheRectangle : Prop :=
  ∀ s : State, s.TransferErrors .write32 .f32 s.lsrc.toNat ∧
    (s.TransferFits .f32 s.lsrc.toNat →
      ∃ t, exec .write32 s = .next t ∧ t = { s with plane := t.plane, err := .ok } ∧
        (∀ k < s.pixelCount, ∀ i < 4,
          (∀ j, k < j → j < s.pixelCount → (s.rectAddress .f32 j).offset ≠ (s.rectAddress .f32 k).offset) →
          t.readByte .plane ((s.rectAddress .f32 k).offset + i) =
            s.readByte .linear (s.lsrc.toNat + 4 * k + i)) ∧
        (∀ a, (∀ k < s.pixelCount, a < (s.rectAddress .f32 k).offset ∨ (s.rectAddress .f32 k).offset + 4 ≤ a) →
          t.readByte .plane a = s.readByte .plane a))

/-- R92, R89: WRITE8, byte by byte. -/
def Obligations.Write8StoresTheRectangle : Prop :=
  ∀ s : State, s.TransferErrors .write8 .f8 s.lsrc.toNat ∧
    (s.TransferFits .f8 s.lsrc.toNat →
      ∃ t, exec .write8 s = .next t ∧ t = { s with plane := t.plane, err := .ok } ∧
        (∀ k < s.pixelCount,
          (∀ j, k < j → j < s.pixelCount → (s.rectAddress .f8 j).offset ≠ (s.rectAddress .f8 k).offset) →
          t.readByte .plane (s.rectAddress .f8 k).offset = s.readByte .linear (s.lsrc.toNat + k)) ∧
        (∀ a, (∀ k < s.pixelCount, (s.rectAddress .f8 k).offset ≠ a) →
          t.readByte .plane a = s.readByte .plane a))

/-- R95, R94, R89: WRITE4, nibble by nibble; a nibble no pixel is at keeps its value, and so does a byte. -/
def Obligations.Write4StoresTheRectangle : Prop :=
  ∀ s : State, s.TransferErrors .write4 .f4 s.lsrc.toNat ∧
    (s.TransferFits .f4 s.lsrc.toNat →
      ∃ t, exec .write4 s = .next t ∧ t = { s with plane := t.plane, err := .ok } ∧
        (∀ k < s.pixelCount,
          (∀ j, k < j → j < s.pixelCount → s.rectAddress .f4 j ≠ s.rectAddress .f4 k) →
          getNibble (t.readByte .plane (s.rectAddress .f4 k).offset) (s.rectAddress .f4 k).half =
            getNibble (s.readByte .linear (s.lsrc.toNat + k / 2)) (k % 2)) ∧
        (∀ a, ∀ h < 2, (∀ k < s.pixelCount, s.rectAddress .f4 k ≠ { offset := a, half := h }) →
          getNibble (t.readByte .plane a) h = getNibble (s.readByte .plane a) h) ∧
        (∀ a, (∀ k < s.pixelCount, (s.rectAddress .f4 k).offset ≠ a) →
          t.readByte .plane a = s.readByte .plane a))

/-- R91: READ32 fills the linear array with the rectangle's words; every other linear byte, and everything but
STATUS.ERR, is unchanged. -/
def Obligations.Read32LoadsTheRectangle : Prop :=
  ∀ s : State, s.TransferErrors .read32 .f32 s.ldst.toNat ∧
    (s.TransferFits .f32 s.ldst.toNat →
      ∃ t, exec .read32 s = .next t ∧ t = { s with linear := t.linear, err := .ok } ∧
        (∀ k < s.pixelCount, ∀ i < 4, t.readByte .linear (s.ldst.toNat + 4 * k + i) =
          s.readByte .plane ((s.rectAddress .f32 k).offset + i)) ∧
        (∀ a, a < s.ldst.toNat ∨ s.ldst.toNat + 4 * s.pixelCount ≤ a →
          t.readByte .linear a = s.readByte .linear a))

/-- R93: READ8, byte by byte. -/
def Obligations.Read8LoadsTheRectangle : Prop :=
  ∀ s : State, s.TransferErrors .read8 .f8 s.ldst.toNat ∧
    (s.TransferFits .f8 s.ldst.toNat →
      ∃ t, exec .read8 s = .next t ∧ t = { s with linear := t.linear, err := .ok } ∧
        (∀ k < s.pixelCount, t.readByte .linear (s.ldst.toNat + k) =
          s.readByte .plane (s.rectAddress .f8 k).offset) ∧
        (∀ a, a < s.ldst.toNat ∨ s.ldst.toNat + s.pixelCount ≤ a →
          t.readByte .linear a = s.readByte .linear a))

/-- R96, R94: READ4, nibble by nibble; with an odd count the high nibble of the last byte keeps its old value. -/
def Obligations.Read4LoadsTheRectangle : Prop :=
  ∀ s : State, s.TransferErrors .read4 .f4 s.ldst.toNat ∧
    (s.TransferFits .f4 s.ldst.toNat →
      ∃ t, exec .read4 s = .next t ∧ t = { s with linear := t.linear, err := .ok } ∧
        (∀ k < s.pixelCount, getNibble (t.readByte .linear (s.ldst.toNat + k / 2)) (k % 2) =
          getNibble (s.readByte .plane (s.rectAddress .f4 k).offset) (s.rectAddress .f4 k).half) ∧
        (s.pixelCount % 2 = 1 →
          getNibble (t.readByte .linear (s.ldst.toNat + s.pixelCount / 2)) 1 =
            getNibble (s.readByte .linear (s.ldst.toNat + s.pixelCount / 2)) 1) ∧
        (∀ a, a < s.ldst.toNat ∨ s.ldst.toNat + (s.pixelCount + 1) / 2 ≤ a →
          t.readByte .linear a = s.readByte .linear a))

/-- R97: an empty rectangle succeeds with no effect, whatever LSRC, LDST and LB_SIZE are. -/
def Obligations.EmptyRectangleSucceeds : Prop :=
  ∀ s : State, (s.rw = 0 ∨ s.rh = 0) →
    ∀ i ∈ [Instr.write32, .read32, .write8, .read8, .write4, .read4], exec i s = .next { s with err := .ok }

/-- R133: a WRITE of a rectangle whose pixels do not share addresses, then a READ of the same rectangle and format to
LDST, gives the data back (for F4 nibble by nibble). -/
def Obligations.WriteThenReadReturnsTheData : Prop :=
  ∀ (f : Format) (s t : State),
    let wr := match f with | .f32 => Instr.write32 | .f8 => .write8 | .f4 => .write4
    let rd := match f with | .f32 => Instr.read32 | .f8 => .read8 | .f4 => .read4
    s.TransferFits f s.lsrc.toNat → s.TransferFits f s.ldst.toNat →
    (∀ j k, j < s.pixelCount → k < s.pixelCount → s.rectAddress f j = s.rectAddress f k → j = k) →
    exec wr s = .next t →
    ∃ u, exec rd t = .next u ∧ u.err = .ok ∧
      (∀ k < s.pixelCount, match f with
        | .f32 => ∀ i < 4, u.readByte .linear (s.ldst.toNat + 4 * k + i) =
            s.readByte .linear (s.lsrc.toNat + 4 * k + i)
        | .f8 => u.readByte .linear (s.ldst.toNat + k) = s.readByte .linear (s.lsrc.toNat + k)
        | .f4 => getNibble (u.readByte .linear (s.ldst.toNat + k / 2)) (k % 2) =
            getNibble (s.readByte .linear (s.lsrc.toNat + k / 2)) (k % 2))

/-! ### The orchestrator -/

/-- R101: the checks of UNSWIZZLE and SWIZZLE and their order; `n > 2^22` is exactly the case where some pass would
address a plane byte at or above 2^22. -/
def Obligations.OrchestratorChecksInOrder : Prop :=
  ∀ s : State, s.OrchestratorErrors .unswizzle ∧ s.OrchestratorErrors .swizzle ∧
    s.streamLength = (if s.bpp.toNat = 8 then s.rw.toNat * s.rh.toNat else s.rw.toNat * s.rh.toNat / 2) ∧
    (s.SizesLegal → (4194304 < s.streamLength ↔
      (∃ j < s.rw.toNat / 2 * s.scaledHeight, 4194304 ≤ s.scaledOffset j) ∨
        ∃ k < s.rw.toNat * s.rh.toNat, 4194304 ≤ (s.imageAddress k).offset)) ∧
    (s.OrchestratorFits → ∃ t u, exec .unswizzle s = .next t ∧ t.err = .ok ∧ exec .swizzle s = .next u ∧ u.err = .ok)

/-- R103, R102: a successful UNSWIZZLE is WRITE32 over the scaled rectangle, then READ8 or READ4 over the full one, both
with base page 0, buffer width `w / 128` and origin (0, 0); no register but STATUS changes (R109). -/
def Obligations.UnswizzleIsWriteThenRead : Prop :=
  ∀ s : State, s.OrchestratorErrors .unswizzle ∧
    (s.OrchestratorFits → ∃ u v t,
      exec .write32 { s with
        base := 0, bufw := BitVec.ofNat 16 (s.rw.toNat / 128), rx := 0, ry := 0
        rw := BitVec.ofNat 16 (s.rw.toNat / 2)
        rh := BitVec.ofNat 16 (if s.bpp.toNat = 8 then s.rh.toNat / 2 else s.rh.toNat / 4) } = .next u ∧
      u.err = .ok ∧
      exec (if s.bpp.toNat = 8 then .read8 else .read4) { u with rw := s.rw, rh := s.rh } = .next v ∧ v.err = .ok ∧
      exec .unswizzle s = .next t ∧ t = { s with plane := v.plane, linear := v.linear, err := .ok })

/-- R104, R102: a successful SWIZZLE is WRITE8 or WRITE4 over the full rectangle, then READ32 over the scaled one. -/
def Obligations.SwizzleIsWriteThenRead : Prop :=
  ∀ s : State, s.OrchestratorErrors .swizzle ∧
    (s.OrchestratorFits → ∃ u v t,
      exec (if s.bpp.toNat = 8 then .write8 else .write4) { s with
        base := 0, bufw := BitVec.ofNat 16 (s.rw.toNat / 128), rx := 0, ry := 0 } = .next u ∧
      u.err = .ok ∧
      exec .read32 { u with
        rw := BitVec.ofNat 16 (s.rw.toNat / 2)
        rh := BitVec.ofNat 16 (if s.bpp.toNat = 8 then s.rh.toNat / 2 else s.rh.toNat / 4) } = .next v ∧ v.err = .ok ∧
      exec .swizzle s = .next t ∧ t = { s with plane := v.plane, linear := v.linear, err := .ok })

/-- R108: after a successful UNSWIZZLE or SWIZZLE plane bytes `[0, n)` hold the data as the pass-1 writer placed it, and
every plane byte at `n` or above is unchanged. -/
def Obligations.OrchestratorPlaneSideEffect : Prop :=
  ∀ s t u : State, s.OrchestratorFits → exec .unswizzle s = .next t → exec .swizzle s = .next u →
    (∀ j < s.rw.toNat / 2 * s.scaledHeight, ∀ i < 4,
      t.readByte .plane (s.scaledOffset j + i) = s.readByte .linear (s.lsrc.toNat + 4 * j + i)) ∧
    (∀ k < s.rw.toNat * s.rh.toNat,
      if s.bpp.toNat = 8 then
        u.readByte .plane (s.imageAddress k).offset = s.readByte .linear (s.lsrc.toNat + k)
      else
        getNibble (u.readByte .plane (s.imageAddress k).offset) (s.imageAddress k).half =
          getNibble (s.readByte .linear (s.lsrc.toNat + k / 2)) (k % 2)) ∧
    (∀ a, s.streamLength ≤ a →
      t.readByte .plane a = s.readByte .plane a ∧ u.readByte .plane a = s.readByte .plane a)

/-- R103: where a byte of UNSWIZZLE's input goes. Pixel `k` of the output lies where the scaled F32 pixel `j` has its
byte `i`, and takes that input byte (for bpp 4, that nibble); linear bytes outside `[dst, dst + n)` are unchanged. -/
def Obligations.UnswizzleMovesEachPixel : Prop :=
  ∀ s t : State, s.OrchestratorFits → exec .unswizzle s = .next t →
    (∀ k < s.rw.toNat * s.rh.toNat, ∀ j < s.rw.toNat / 2 * s.scaledHeight, ∀ i < 4,
      (s.imageAddress k).offset = s.scaledOffset j + i →
      if s.bpp.toNat = 8 then
        t.readByte .linear (s.ldst.toNat + k) = s.readByte .linear (s.lsrc.toNat + 4 * j + i)
      else
        getNibble (t.readByte .linear (s.ldst.toNat + k / 2)) (k % 2) =
          getNibble (s.readByte .linear (s.lsrc.toNat + 4 * j + i)) (s.imageAddress k).half) ∧
    (∀ k < s.rw.toNat * s.rh.toNat, ∃ j < s.rw.toNat / 2 * s.scaledHeight, ∃ i < 4,
      (s.imageAddress k).offset = s.scaledOffset j + i) ∧
    (∀ a, a < s.ldst.toNat ∨ s.ldst.toNat + s.streamLength ≤ a → t.readByte .linear a = s.readByte .linear a)

/-- R104: where a pixel of SWIZZLE's input goes: to the byte `i` of the scaled F32 pixel `j` that holds it (for bpp 4, to
the nibble of it). Every byte and nibble of the output is filled so; linear bytes outside `[dst, dst + n)` are
unchanged. -/
def Obligations.SwizzleMovesEachPixel : Prop :=
  ∀ s t : State, s.OrchestratorFits → exec .swizzle s = .next t →
    (∀ k < s.rw.toNat * s.rh.toNat, ∀ j < s.rw.toNat / 2 * s.scaledHeight, ∀ i < 4,
      (s.imageAddress k).offset = s.scaledOffset j + i →
      if s.bpp.toNat = 8 then
        t.readByte .linear (s.ldst.toNat + 4 * j + i) = s.readByte .linear (s.lsrc.toNat + k)
      else
        getNibble (t.readByte .linear (s.ldst.toNat + 4 * j + i)) (s.imageAddress k).half =
          getNibble (s.readByte .linear (s.lsrc.toNat + k / 2)) (k % 2)) ∧
    (∀ j < s.rw.toNat / 2 * s.scaledHeight, ∀ i < 4, ∀ h < (if s.bpp.toNat = 8 then 1 else 2),
      ∃ k < s.rw.toNat * s.rh.toNat, s.imageAddress k = { offset := s.scaledOffset j + i, half := h }) ∧
    (∀ a, a < s.ldst.toNat ∨ s.ldst.toNat + s.streamLength ≤ a → t.readByte .linear a = s.readByte .linear a)

/-- R105, R107: the output of UNSWIZZLE and of SWIZZLE depends on the input bytes, the sizes and the depth alone: not on
the plane, the old output bytes, the other registers, or where source and destination lie (overlapping or not). -/
def Obligations.OrchestratorOutputDependsOnInputAlone : Prop :=
  ∀ (i : Instr) (s s' t t' : State), i = .unswizzle ∨ i = .swizzle →
    s.OrchestratorFits → s'.OrchestratorFits → s'.rw = s.rw → s'.rh = s.rh → s'.bpp = s.bpp →
    (∀ a < s.streamLength, s'.readByte .linear (s'.lsrc.toNat + a) = s.readByte .linear (s.lsrc.toNat + a)) →
    exec i s = .next t → exec i s' = .next t' →
    ∀ a < s.streamLength, t'.readByte .linear (s'.ldst.toNat + a) = t.readByte .linear (s.ldst.toNat + a)

/-- R106: SWIZZLE of UNSWIZZLE of an array is the array, and the converse, with no other command between. -/
def Obligations.SwizzleAndUnswizzleAreInverse : Prop :=
  ∀ (s t u : State) (d : BitVec 32) (i j : Instr),
    (i = .unswizzle ∧ j = .swizzle) ∨ (i = .swizzle ∧ j = .unswizzle) →
    s.OrchestratorFits → d.toNat + s.streamLength ≤ s.lbSize →
    exec i s = .next t → exec j { t with lsrc := s.ldst, ldst := d } = .next u →
    u.err = .ok ∧ ∀ a < s.streamLength, u.readByte .linear (d.toNat + a) = s.readByte .linear (s.lsrc.toNat + a)

/-! ### Errors and STATUS -/

/-- R111, R113: every command, and every command word, ends in one next state, in which ERR is one of the codes of R115
and STICKY is set by an error and never cleared. -/
def Obligations.EveryCommandCompletesAndUpdatesStatus : Prop :=
  ∀ (w : Word) (s : State), ∃ t, hostCommand w s = .next t ∧ t.err.code ≤ 4 ∧
    (t.sticky = true ↔ s.sticky = true ∨ t.err ≠ .ok) ∧
    t.readReg .status = BitVec.ofNat 32 (t.err.code + if t.sticky then 256 else 0)

/-- R120: a command that ends with an error changes STATUS alone. -/
def Obligations.FailedCommandChangesStatusOnly : Prop :=
  ∀ (w : Word) (s t : State), hostCommand w s = .next t → t.err ≠ .ok → t = s.failedWith t.err

/-- R12, R98, R109: no command writes a parameter register; only ADDR writes RESULT; ADDR reaches neither memory, a
WRITE no linear byte, a READ no plane byte. -/
def Obligations.CommandsKeepTheirOperands : Prop :=
  ∀ (i : Instr) (s t : State), exec i s = .next t →
    t = { s with err := t.err, sticky := t.sticky, result := t.result, plane := t.plane, linear := t.linear } ∧
    (i ∉ [Instr.addr32, .addr8, .addr4] → t.result = s.result) ∧
    (i ∈ [Instr.addr32, .addr8, .addr4, .read32, .read8, .read4] → t.plane = s.plane) ∧
    (i ∈ [Instr.addr32, .addr8, .addr4, .write32, .write8, .write4] → t.linear = s.linear)

/-- R115, R116, R117: which command can end with which code. -/
def Obligations.ErrorCodesByCommand : Prop :=
  ∀ (i : Instr) (s t : State), exec i s = .next t → t.err ≠ .opcode ∧
    (i ∉ [Instr.unswizzle, .swizzle] → t.err ≠ .geometry) ∧
    (i ∈ [Instr.addr32, .addr8, .addr4] → t.err ≠ .linear)

/-- R114: STICKY is 1 exactly when some command of a run that starts with STICKY 0, as a reset leaves it, and in which
no reset happens, ended with an error. -/
def Obligations.StickyExactlyWhenACommandFailed : Prop :=
  ∀ (n : Nat) (s t : State), s.sticky = false → core.run n s = .next t →
    (∀ m < n, ∀ u, core.run m s = .next u → State.resetDelivered u = false) →
    (t.sticky = true ↔ ∃ m < n, ∃ u v : State, core.run m s = .next u ∧ (State.commandDelivered u).isSome ∧
      step u = .next v ∧ v.err ≠ .ok)

/-! ### The whole machine -/

/-- The invariant holds at reset. -/
def Obligations.InvariantHoldsAtReset : Prop :=
  State.reset.Inv

/-- Every step keeps the invariant: both memories stay canonical and inside their address spaces (no command and no host
access ever reaches past 2^22 or LB_SIZE, R31, R32), and an error in STATUS.ERR has set STICKY (R113). -/
def Obligations.EveryStepKeepsTheInvariant : Prop :=
  ∀ s t : State, s.Inv → step s = .next t → t.Inv

/-- Canonical memories with the same bytes are the same data. The list form is the model's choice (logs 1 and 2). -/
def Obligations.EqualMemoriesAreEqualData : Prop :=
  ∀ s t : State, s.MemoryCanonical → t.MemoryCanonical → t.plane0 = s.plane0 → t.lb0 = s.lb0 →
    (∀ sp a, t.readByte sp a = s.readByte sp a) → t.plane = s.plane ∧ t.linear = s.linear

/-- A run of admitted transactions never stops early (R24, R26, R111, R139): each step answers a next state, and what is
still pending stays admitted. That a step takes one turn off is the model's choice (log 4), and so is the condition on
linear-buffer accesses in `admitted`, since those outside the buffer fault (log 7). -/
def Obligations.AdmittedRunsNeverStop : Prop :=
  ∀ s : State, s.Admitted → ∃ t, step s = .next t ∧ t.Admitted ∧ t.turns = s.turns.tail ∧ t.lbSize = s.lbSize

/-- R135: the parameter registers are shared. Host 0 makes SET RX, `x0` and then ADDR32; host 1 makes SET RX, `x1`. Where
host 1's SET comes after the command or before both, RESULT is the address at `x0`; where it comes between, RESULT is the
address at `x1`. The two differ for `x0 = 0` and `x1 = 1`. The orders are turns of the model's form (log 4). -/
def Obligations.InterleavingDecidesSharedRegisters : Prop :=
  ∀ (s : State) (x0 x1 : Word),
    let run := fun turns : List Nat => core.run 3 { s with
      agents := [⟨[.regWrite 32 0x10 x0, .regWrite 32 0x00 (encode .addr32)], []⟩, ⟨[.regWrite 32 0x10 x1], []⟩]
      turns := turns }
    let address := fun x : Word =>
      (addressOf .f32 s.base.toNat s.bufw.toNat (x.setWidth 16).toNat s.ry.toNat).offset
    (address x0 < 4194304 →
      (∃ t : State, run [0, 0, 1] = .next t ∧ t.err = .ok ∧ t.result = BitVec.ofNat 23 (address x0) ∧
        t.rx = x1.setWidth 16) ∧
      (∃ t : State, run [1, 0, 0] = .next t ∧ t.err = .ok ∧ t.result = BitVec.ofNat 23 (address x0) ∧
        t.rx = x0.setWidth 16)) ∧
    (address x1 < 4194304 →
      ∃ t : State, run [0, 1, 0] = .next t ∧ t.err = .ok ∧ t.result = BitVec.ofNat 23 (address x1) ∧
        t.rx = x1.setWidth 16) ∧
    address 0 ≠ address 1

/-- R54, R55: the transactions the basic statements of a listing stand for. -/
def Obligations.StatementsAreTransactions : Prop :=
  (∀ row ∈ parameterRegisters, ∀ v : Word, Stmt.wf (.set row.1 v) = true ∧
    stmtEvents (.set row.1 v) = [.regWrite 32 row.2.1 v] ∧ stmtEvents (.get row.1) = [.regRead 32 row.2.1]) ∧
  (∀ row ∈ [(RegName.cmd, 0x00), (.status, 0x04), (.result, 0x2C)], ∀ v : Word,
    Stmt.wf (.set row.1 v) = false ∧ stmtEvents (.get row.1) = [.regRead 32 row.2]) ∧
  (∀ i : Instr, stmtEvents (.op i) = [.regWrite 32 0x00 (encode i)]) ∧
  (∀ v : Word, stmtEvents (.cmd v) = [.regWrite 32 0x00 v]) ∧
  (∀ (o n : Nat) (bs : List Byte), stmtEvents (.lbw o bs) = [.lbWrite o bs] ∧ stmtEvents (.lbr o n) = [.lbRead o n])

/-- R56, R57, R58: the expansions of the pseudo-instructions. -/
def Obligations.PseudoInstructionsExpand : Prop :=
  ∀ x y w h b src dst : Word,
    stmtEvents (.rect x y w h) =
      [.regWrite 32 0x10 x, .regWrite 32 0x14 y, .regWrite 32 0x18 w, .regWrite 32 0x1C h] ∧
    stmtEvents (.addrAt .f32 x y) =
      [.regWrite 32 0x10 x, .regWrite 32 0x14 y, .regWrite 32 0x00 0x1, .regRead 32 0x2C] ∧
    stmtEvents (.addrAt .f8 x y) =
      [.regWrite 32 0x10 x, .regWrite 32 0x14 y, .regWrite 32 0x00 0x2, .regRead 32 0x2C] ∧
    stmtEvents (.addrAt .f4 x y) =
      [.regWrite 32 0x10 x, .regWrite 32 0x14 y, .regWrite 32 0x00 0x3, .regRead 32 0x2C] ∧
    stmtEvents (.unswz b w h src dst) =
      [.regWrite 32 0x18 w, .regWrite 32 0x1C h, .regWrite 32 0x20 b, .regWrite 32 0x24 src, .regWrite 32 0x28 dst,
        .regWrite 32 0x00 0xA, .regRead 32 0x04] ∧
    stmtEvents (.swz b w h src dst) =
      [.regWrite 32 0x18 w, .regWrite 32 0x1C h, .regWrite 32 0x20 b, .regWrite 32 0x24 src, .regWrite 32 0x28 dst,
        .regWrite 32 0x00 0xB, .regRead 32 0x04]
end

