-- ==== Sys2Proof/Laws/Address.lean ====
section
/-! SUPPORT. The address function: its bounds, its inverse on one page, and when two pixels share an address. -/

namespace Sys2Proof.Machine

/-! ### The tables and their inverses -/

/-- The index of a block number in its block table (the closed form of R76 read backwards). -/
def blockInverse (f : Format) (v : Nat) : Nat :=
  match f with
  | .f32 | .f8 => (v % 2 + 2 * (v / 4 % 2) + 4 * (v / 16 % 2)) + 8 * (v / 2 % 2 + 2 * (v / 8 % 2))
  | .f4 => (v / 2 % 2 + 2 * (v / 8 % 2)) + 4 * (v % 2 + 2 * (v / 4 % 2) + 4 * (v / 16 % 2))

/-- The number of sub-word selectors of a format (R61). -/
def selectors : Format → Nat
  | .f32 => 1
  | .f8 => 4
  | .f4 => 8

/-- The index of a word and selector in the column tables (the closed forms of R76 read backwards). -/
def columnInverse (f : Format) (parity cw sel : Nat) : Nat :=
  match f with
  | .f32 => (cw % 2 + 2 * (cw / 4 % 2) + 4 * (cw / 8 % 2)) + 8 * (cw / 2 % 2)
  | .f8 => (cw % 2 + 2 * (cw / 4 % 2) + 4 * ((cw / 8 + sel + parity) % 2) + 8 * (sel / 2)) +
      16 * (cw / 2 % 2 + 2 * (sel % 2))
  | .f4 => (cw % 2 + 2 * (cw / 4 % 2) + 4 * ((cw / 8 + sel + parity) % 2) + 8 * (sel / 2)) +
      32 * (cw / 2 % 2 + 2 * (sel % 2))

/-- The selector table of a format, by column-local index. -/
def selectorAt (f : Format) (ci : Nat) : Nat :=
  match f with
  | .f32 => 0
  | .f8 => colByte8.getD ci 0
  | .f4 => colByte4.getD ci 0

theorem selectorOf_eq (f : Format) (x y : Nat) : selectorOf f x y = selectorAt f (columnIndex f x y) := by
  cases f <;> rfl

theorem blockTable_spec (f : Format) :
    (∀ i < 32, (blockTable f).getD i 0 < 32 ∧ blockInverse f ((blockTable f).getD i 0) = i) ∧
    (∀ v < 32, blockInverse f v < 32 ∧ (blockTable f).getD (blockInverse f v) 0 = v) := by
  cases f <;> decide

theorem columnTable_bounds (f : Format) (parity : Nat) (hp : parity < 2) :
    ∀ i < 16 * selectors f, (colWordTable f parity).getD i 0 < 16 ∧ selectorAt f i < selectors f := by
  obtain rfl | rfl : parity = 0 ∨ parity = 1 := by omega
  all_goals cases f <;> decide

theorem columnInverse_table (f : Format) (parity : Nat) (hp : parity < 2) :
    ∀ i < 16 * selectors f, columnInverse f parity ((colWordTable f parity).getD i 0) (selectorAt f i) = i := by
  obtain rfl | rfl : parity = 0 ∨ parity = 1 := by omega
  all_goals cases f <;> decide

theorem table_columnInverse (f : Format) (parity : Nat) (hp : parity < 2) :
    ∀ cw < 16, ∀ sel < selectors f,
      columnInverse f parity cw sel < 16 * selectors f ∧
      (colWordTable f parity).getD (columnInverse f parity cw sel) 0 = cw ∧
      selectorAt f (columnInverse f parity cw sel) = sel := by
  obtain rfl | rfl : parity = 0 ∨ parity = 1 := by omega
  all_goals cases f <;> decide

/-! ### Bounds -/

theorem blockIndex_lt (f : Format) (x y : Nat) :
    x % (geometry f).pageW / (geometry f).blockW +
      y % (geometry f).pageH / (geometry f).blockH * (geometry f).rowBlocks < 32 := by
  cases f <;> simp only [geometry] <;> omega

theorem columnIndex_lt (f : Format) (x y : Nat) : columnIndex f x y < 16 * selectors f := by
  cases f <;> simp only [columnIndex, geometry, selectors] <;> omega

theorem blockOf_lt (f : Format) (x y : Nat) : blockOf f x y < 32 :=
  ((blockTable_spec f).1 _ (blockIndex_lt f x y)).1

theorem columnOf_lt (f : Format) (y : Nat) : columnOf f y < 4 := by
  cases f <;> simp only [columnOf, geometry] <;> omega

theorem columnWord_lt (f : Format) (x y : Nat) : columnWord f x y < 16 :=
  (columnTable_bounds f _ (Nat.mod_lt _ (by norm_num)) _ (columnIndex_lt f x y)).1

theorem selectorOf_lt (f : Format) (x y : Nat) : selectorOf f x y < selectors f := by
  rw [selectorOf_eq]
  exact (columnTable_bounds f 0 (by norm_num) _ (columnIndex_lt f x y)).2

/-- A pixel's word lies among the 2048 words of its page (R84). -/
theorem wordIndex_bounds (f : Format) (bp bw x y : Nat) :
    bp * 64 + pageOf f bw x y * 2048 ≤ wordIndex f bp bw x y ∧
    wordIndex f bp bw x y < bp * 64 + pageOf f bw x y * 2048 + 2048 := by
  have := blockOf_lt f x y
  have := columnOf_lt f y
  have := columnWord_lt f x y
  unfold wordIndex
  omega

/-- The selector at a byte offset and nibble half (R67 read backwards). -/
def placeSelector (f : Format) (off half : Nat) : Nat :=
  match f with
  | .f32 => 0
  | .f8 => off % 4
  | .f4 => off % 4 * 2 + half

/-- An address is a word and a selector within it (R67). -/
theorem addressOf_spec (f : Format) (bp bw x y : Nat) :
    (addressOf f bp bw x y).offset / 4 = wordIndex f bp bw x y ∧
    (addressOf f bp bw x y).half < 2 ∧
    selectorOf f x y = placeSelector f (addressOf f bp bw x y).offset (addressOf f bp bw x y).half := by
  have hs := selectorOf_lt f x y
  cases f <;> simp only [addressOf, placeSelector, selectors] at hs ⊢ <;> refine ⟨?_, ?_, ?_⟩ <;> omega

theorem addressOf_half_lt (f : Format) (bp bw x y : Nat) : (addressOf f bp bw x y).half < 2 :=
  (addressOf_spec f bp bw x y).2.1

/-- The address of a pixel lies among the 8192 bytes of its page (R84). -/
theorem addressOf_bounds (f : Format) (bp bw x y : Nat) :
    bp * 256 + pageOf f bw x y * 8192 ≤ (addressOf f bp bw x y).offset ∧
    (addressOf f bp bw x y).offset < bp * 256 + pageOf f bw x y * 8192 + 8192 := by
  have h1 := wordIndex_bounds f bp bw x y
  have h2 := (addressOf_spec f bp bw x y).1
  omega

/-- F32 addresses are whole words (R37). -/
theorem addressOf_f32_aligned (bp bw x y : Nat) :
    (addressOf .f32 bp bw x y).offset % 4 = 0 ∧ (addressOf .f32 bp bw x y).half = 0 :=
  ⟨Nat.mul_mod_right 4 _, rfl⟩

theorem addressOf_f8_half (bp bw x y : Nat) : (addressOf .f8 bp bw x y).half = 0 := rfl

/-! ### The inverse on one page -/

/-- The page-local pixel at a page-local byte offset and nibble half. -/
def localPixel (f : Format) (off half : Nat) : Nat × Nat :=
  let g := geometry f
  let sel := placeSelector f off half
  let w := off / 4
  let b := blockInverse f (w / 64)
  let col := w % 64 / 16
  let ci := columnInverse f (col % 2) (w % 16) sel
  (b % g.rowBlocks * g.blockW + ci % g.blockW, b / g.rowBlocks * g.blockH + col * g.colH + ci / g.blockW)

/-- The places of a format within a page: words, bytes or nibbles. -/
def legalPlace (f : Format) (off half : Nat) : Prop :=
  off < 8192 ∧ isPlace f off half

/-- The local pixel of a pixel's address is the pixel. -/
theorem localPixel_addressOf (f : Format) (bp bw x y : Nat) :
    localPixel f ((addressOf f bp bw x y).offset - bp * 256 - pageOf f bw x y * 8192) (addressOf f bp bw x y).half =
      (x % (geometry f).pageW, y % (geometry f).pageH) := by
  obtain ⟨hw, hh, hs⟩ := addressOf_spec f bp bw x y
  obtain ⟨hlo, hhi⟩ := addressOf_bounds f bp bw x y
  have hb := blockOf_lt f x y
  have hc := columnOf_lt f y
  have hcw := columnWord_lt f x y
  have hW : wordIndex f bp bw x y = bp * 64 + pageOf f bw x y * 2048 +
      (blockOf f x y * 64 + columnOf f y * 16 + columnWord f x y) := by unfold wordIndex; omega
  generalize hoff : (addressOf f bp bw x y).offset = off at *
  generalize hhalf : (addressOf f bp bw x y).half = half at *
  generalize hloc : off - bp * 256 - pageOf f bw x y * 8192 = loc at *
  have hl4 : loc / 4 = blockOf f x y * 64 + columnOf f y * 16 + columnWord f x y := by omega
  have hm4 : loc % 4 = off % 4 := by omega
  have hblk : loc / 4 / 64 = blockOf f x y := by omega
  have hcol : loc / 4 % 64 / 16 = columnOf f y := by omega
  have hword : loc / 4 % 16 = columnWord f x y := by omega
  have hinv := columnInverse_table f (columnOf f y % 2) (Nat.mod_lt _ (by norm_num)) _ (columnIndex_lt f x y)
  rw [← selectorOf_eq, hs] at hinv
  have hbinv := ((blockTable_spec f).1 _ (blockIndex_lt f x y)).2
  have hci : columnInverse f (columnOf f y % 2) (columnWord f x y) (placeSelector f loc half) = columnIndex f x y := by
    have hps : placeSelector f loc half = placeSelector f off half := by
      cases f <;> simp only [placeSelector, hm4]
    rw [hps]
    exact hinv
  have hbi : blockInverse f (blockOf f x y) = _ := hbinv
  simp only [localPixel, hblk, hcol, hword, hci, hbi]
  clear hci hbi hbinv hinv hs hloc hoff hhalf hW hw hlo hhi hl4 hm4 hblk hcol hword
  cases f <;> simp only [geometry, columnOf, columnIndex, Prod.mk.injEq] <;> constructor <;> omega

/-- The pixel at a place of a page has that place's address. -/
theorem addressOf_localPixel (f : Format) (bp bw X Y off half : Nat) (h : legalPlace f off half) :
    (localPixel f off half).1 < (geometry f).pageW ∧ (localPixel f off half).2 < (geometry f).pageH ∧
    addressOf f bp bw (X * (geometry f).pageW + (localPixel f off half).1)
      (Y * (geometry f).pageH + (localPixel f off half).2) =
      { offset := bp * 256 + (X + Y * bw) * 8192 + off, half := half } := by
  obtain ⟨hoff, hlegal⟩ := h
  have hsel : (placeSelector f off half) < selectors f := by
    cases f <;> simp only [isPlace, placeSelector, selectors] at hlegal ⊢ <;> omega
  have hT := table_columnInverse f (off / 4 % 64 / 16 % 2) (Nat.mod_lt _ (by norm_num)) (off / 4 % 16)
    (Nat.mod_lt _ (by norm_num)) _ hsel
  have hB := (blockTable_spec f).2 (off / 4 / 64) (by omega)
  obtain ⟨hci, hcw, hss⟩ := hT
  obtain ⟨hbi, hbv⟩ := hB
  have hl : localPixel f off half =
      (blockInverse f (off / 4 / 64) % (geometry f).rowBlocks * (geometry f).blockW +
        columnInverse f (off / 4 % 64 / 16 % 2) (off / 4 % 16) (placeSelector f off half) % (geometry f).blockW,
       blockInverse f (off / 4 / 64) / (geometry f).rowBlocks * (geometry f).blockH +
        off / 4 % 64 / 16 * (geometry f).colH +
        columnInverse f (off / 4 % 64 / 16 % 2) (off / 4 % 16) (placeSelector f off half) / (geometry f).blockW) := rfl
  rw [hl]
  generalize hcd : columnInverse f (off / 4 % 64 / 16 % 2) (off / 4 % 16) (placeSelector f off half) = ci at *
  generalize hbd : blockInverse f (off / 4 / 64) = b at *
  clear hl hcd hbd
  generalize hx : X * (geometry f).pageW + (b % (geometry f).rowBlocks * (geometry f).blockW +
    ci % (geometry f).blockW) = x
  generalize hy : Y * (geometry f).pageH + (b / (geometry f).rowBlocks * (geometry f).blockH +
    off / 4 % 64 / 16 * (geometry f).colH + ci / (geometry f).blockW) = y
  have hpx : b % (geometry f).rowBlocks * (geometry f).blockW + ci % (geometry f).blockW < (geometry f).pageW := by
    cases f <;> simp only [geometry] at * <;> omega
  have hpy : b / (geometry f).rowBlocks * (geometry f).blockH + off / 4 % 64 / 16 * (geometry f).colH +
      ci / (geometry f).blockW < (geometry f).pageH := by
    cases f <;> simp only [geometry, selectors] at * <;> omega
  refine ⟨hpx, hpy, ?_⟩
  have hpage : pageOf f bw x y = X + Y * bw := by
    have hX : x / (geometry f).pageW = X := by
      cases f <;> simp only [geometry] at * <;> omega
    have hY : y / (geometry f).pageH = Y := by
      cases f <;> simp only [geometry, selectors] at * <;> omega
    simp [pageOf, hX, hY]
  have hbidx : x % (geometry f).pageW / (geometry f).blockW +
      y % (geometry f).pageH / (geometry f).blockH * (geometry f).rowBlocks = b := by
    cases f <;> simp only [geometry, selectors] at * <;> omega
  have hcol : columnOf f y = off / 4 % 64 / 16 := by
    cases f <;> simp only [columnOf, geometry, selectors] at * <;> omega
  have hcidx : columnIndex f x y = ci := by
    cases f <;> simp only [columnIndex, geometry, selectors] at * <;> omega
  have hblock : blockOf f x y = off / 4 / 64 := by
    have : blockOf f x y = (blockTable f).getD (x % (geometry f).pageW / (geometry f).blockW +
      y % (geometry f).pageH / (geometry f).blockH * (geometry f).rowBlocks) 0 := rfl
    rw [this, hbidx, hbv]
  have hword : columnWord f x y = off / 4 % 16 := by
    rw [columnWord, hcol, hcidx, hcw]
  have hselx : selectorOf f x y = placeSelector f off half := by
    rw [selectorOf_eq, hcidx, hss]
  have hW : wordIndex f bp bw x y = bp * 64 + (X + Y * bw) * 2048 + off / 4 := by
    rw [wordIndex, hpage, hblock, hcol, hword]
    omega
  clear hcol hcidx hblock hword hbidx hpage hx hy hpx hpy hbv hbi hci hcw hss
  cases f
  all_goals
    simp only [addressOf, hW, isPlace, placeSelector, PixelAddr.mk.injEq] at hselx hlegal ⊢
    try rw [hselx]
    omega

/-- Two pixels of one buffer share an address exactly when they share the page and the place in it (R85). -/
theorem addressOf_eq_iff (f : Format) (bp bw x y x' y' : Nat) :
    addressOf f bp bw x y = addressOf f bp bw x' y' ↔
      pageOf f bw x y = pageOf f bw x' y' ∧ x % (geometry f).pageW = x' % (geometry f).pageW ∧
        y % (geometry f).pageH = y' % (geometry f).pageH := by
  constructor
  · intro h
    have hb := addressOf_bounds f bp bw x y
    have hb' := addressOf_bounds f bp bw x' y'
    have hpage : pageOf f bw x y = pageOf f bw x' y' := by rw [h] at hb; omega
    have hl := localPixel_addressOf f bp bw x y
    have hl' := localPixel_addressOf f bp bw x' y'
    rw [h, hpage, hl'] at hl
    simp only [Prod.mk.injEq] at hl
    exact ⟨hpage, hl.1.symm, hl.2.symm⟩
  · rintro ⟨hpage, hx, hy⟩
    have hc : columnOf f y = columnOf f y' := by simp only [columnOf, hy]
    have hi : columnIndex f x y = columnIndex f x' y' := by simp only [columnIndex, hx, hy]
    have hb : blockOf f x y = blockOf f x' y' := by simp only [blockOf, hx, hy]
    have hw : columnWord f x y = columnWord f x' y' := by simp only [columnWord, hc, hi]
    have hs : selectorOf f x y = selectorOf f x' y' := by simp only [selectorOf_eq, hi]
    have hW : wordIndex f bp bw x y = wordIndex f bp bw x' y' := by simp only [wordIndex, hpage, hb, hc, hw]
    cases f <;> simp only [addressOf, hW, hs]

end Sys2Proof.Machine
end

