-- ==== Sys2Proof/Laws/Memory.lean ====
section
/-! SUPPORT. The laws of a byte memory: read after write, the canonical form is kept, equal contents are equal lists. -/

namespace Sys2Proof.Machine

@[simp] theorem Memory.read_nil (d : Nat → Byte) (a : Nat) : Memory.read d [] a = d a := rfl

theorem Memory.read_cons (d : Nat → Byte) (c : Host.Cell) (m : Memory) (a : Nat) :
    Memory.read d (c :: m) a = if a = c.1 then c.2 else Memory.read d m a := rfl

theorem Memory.read_insert (d : Nat → Byte) (m : Memory) (a b : Nat) (v : Byte) :
    Memory.read d (Memory.insert a v m) b = if b = a then v else Memory.read d m b := by
  induction m with
  | nil => rfl
  | cons c m ih =>
    by_cases h₁ : a < c.1
    · simp [Memory.insert, h₁, Memory.read_cons]
    · by_cases h₂ : a = c.1
      · subst h₂
        by_cases hb : b = c.1 <;> simp [Memory.insert, Memory.read_cons, hb]
      · by_cases hb : b = c.1
        · have hca : c.1 ≠ a := Ne.symm h₂
          simp [Memory.insert, h₁, h₂, Memory.read_cons, hb, hca]
        · simp [Memory.insert, h₁, h₂, Memory.read_cons, hb, ih]

theorem Memory.read_erase (d : Nat → Byte) (m : Memory) (a b : Nat) :
    Memory.read d (Memory.erase a m) b = if b = a then d a else Memory.read d m b := by
  induction m with
  | nil => by_cases hb : b = a <;> simp [Memory.erase, hb]
  | cons c m ih =>
    by_cases h₁ : a = c.1
    · have herase : Memory.erase a (c :: m) = Memory.erase a m := by simp [Memory.erase, h₁]
      rw [herase, ih, Memory.read_cons, h₁]
      by_cases hb : b = c.1 <;> simp [hb]
    · by_cases hb : b = c.1
      · have hca : c.1 ≠ a := Ne.symm h₁
        simp [Memory.erase, h₁, Memory.read_cons, hb, hca]
      · simp [Memory.erase, h₁, Memory.read_cons, hb, ih]

/-- Read after write: the written byte at its address, every other byte as before. -/
theorem Memory.read_write (d : Nat → Byte) (m : Memory) (a b : Nat) (v : Byte) :
    Memory.read d (Memory.write d a v m) b = if b = a then v else Memory.read d m b := by
  unfold Memory.write
  by_cases h : v = d a
  · rw [if_pos h, Memory.read_erase, h]
  · rw [if_neg h, Memory.read_insert]

theorem Memory.mem_insert {a : Nat} {v : Byte} {m : Memory} {c : Host.Cell}
    (h : c ∈ Memory.insert a v m) : c = (a, v) ∨ c ∈ m := by
  induction m with
  | nil => exact .inl (by simpa [Memory.insert] using h)
  | cons e m ih =>
    unfold Memory.insert at h
    split_ifs at h
    · exact List.mem_cons.mp h
    · rcases List.mem_cons.mp h with h | h
      · exact .inl h
      · exact .inr (List.mem_cons_of_mem _ h)
    · rcases List.mem_cons.mp h with h | h
      · exact .inr (h ▸ List.mem_cons_self)
      · exact (ih h).imp_right (List.mem_cons_of_mem _)

theorem Memory.mem_erase {a : Nat} {m : Memory} {c : Host.Cell} (h : c ∈ Memory.erase a m) : c ∈ m := by
  induction m with
  | nil => exact h
  | cons e m ih =>
    unfold Memory.erase at h
    split_ifs at h
    · exact List.mem_cons_of_mem _ (ih h)
    · rcases List.mem_cons.mp h with h | h
      · exact h ▸ List.mem_cons_self
      · exact List.mem_cons_of_mem _ (ih h)

theorem Memory.rising_insert (a : Nat) (v : Byte) (m : Memory) (h : m.Pairwise (fun c c' => c.1 < c'.1)) :
    (Memory.insert a v m).Pairwise (fun c c' => c.1 < c'.1) := by
  induction m with
  | nil => simp [Memory.insert]
  | cons e m ih =>
    obtain ⟨hhead, htail⟩ := List.pairwise_cons.mp h
    unfold Memory.insert
    split_ifs with h₁ h₂
    · refine List.pairwise_cons.mpr ⟨fun c hc => ?_, h⟩
      rcases List.mem_cons.mp hc with rfl | hc
      · exact h₁
      · exact h₁.trans (hhead c hc)
    · exact List.pairwise_cons.mpr ⟨fun c hc => h₂ ▸ hhead c hc, htail⟩
    · refine List.pairwise_cons.mpr ⟨fun c hc => ?_, ih htail⟩
      rcases Memory.mem_insert hc with rfl | hc
      · exact lt_of_le_of_ne (not_lt.mp h₁) (Ne.symm h₂)
      · exact hhead c hc

theorem Memory.rising_erase (a : Nat) (m : Memory) (h : m.Pairwise (fun c c' => c.1 < c'.1)) :
    (Memory.erase a m).Pairwise (fun c c' => c.1 < c'.1) := by
  induction m with
  | nil => simp [Memory.erase]
  | cons e m ih =>
    obtain ⟨hhead, htail⟩ := List.pairwise_cons.mp h
    unfold Memory.erase
    split_ifs
    · exact ih htail
    · exact List.pairwise_cons.mpr ⟨fun c hc => hhead c (Memory.mem_erase hc), ih htail⟩

/-- Writing a byte inside the memory keeps the canonical form. -/
theorem Memory.wf_write {d : Nat → Byte} {size : Nat} {m : Memory} {a : Nat} {v : Byte}
    (h : Memory.wf d size m) (ha : a < size) : Memory.wf d size (Memory.write d a v m) := by
  unfold Memory.write
  split_ifs with hv
  · exact ⟨Memory.rising_erase a m h.1, fun c hc => h.2 c (Memory.mem_erase hc)⟩
  · refine ⟨Memory.rising_insert a v m h.1, fun c hc => ?_⟩
    rcases Memory.mem_insert hc with rfl | hc
    · exact ⟨ha, hv⟩
    · exact h.2 c hc

theorem Memory.wf_nil (d : Nat → Byte) (size : Nat) : Memory.wf d size [] :=
  ⟨List.Pairwise.nil, fun _ h => absurd h List.not_mem_nil⟩

theorem Memory.read_of_lt {d : Nat → Byte} {m : Memory} {a : Nat} (h : ∀ c ∈ m, a < c.1) :
    Memory.read d m a = d a := by
  induction m with
  | nil => rfl
  | cons e m ih =>
    have he : a ≠ e.1 := (h e List.mem_cons_self).ne
    simp [Memory.read, he, ih fun c hc => h c (List.mem_cons_of_mem _ hc)]

/-- Two canonical memories with the same bytes are the same list. -/
theorem Memory.eq_of_read_eq {d : Nat → Byte} {size size' : Nat} {m m' : Memory}
    (h : Memory.wf d size m) (h' : Memory.wf d size' m')
    (hread : ∀ a, Memory.read d m a = Memory.read d m' a) : m = m' := by
  induction m generalizing m' with
  | nil =>
    cases m' with
    | nil => rfl
    | cons e' m' =>
      have := hread e'.1
      simp [Memory.read] at this
      exact absurd this.symm (h'.2 e' List.mem_cons_self).2
  | cons e m ih =>
    have hm := List.pairwise_cons.mp h.1
    cases m' with
    | nil =>
      have := hread e.1
      simp [Memory.read] at this
      exact absurd this (h.2 e List.mem_cons_self).2
    | cons e' m' =>
      have hm' := List.pairwise_cons.mp h'.1
      have hne := (h.2 e List.mem_cons_self).2
      have hne' := (h'.2 e' List.mem_cons_self).2
      have hfst : e.1 = e'.1 := by
        rcases lt_trichotomy e.1 e'.1 with hlt | heq | hgt
        · have hr := hread e.1
          rw [Memory.read_of_lt (m := e' :: m') (a := e.1)] at hr
          · simp [Memory.read] at hr
            exact absurd hr hne
          · intro c hc
            rcases List.mem_cons.mp hc with rfl | hc
            · exact hlt
            · exact hlt.trans (hm'.1 c hc)
        · exact heq
        · have hr := hread e'.1
          rw [Memory.read_of_lt (m := e :: m) (a := e'.1)] at hr
          · simp [Memory.read] at hr
            exact absurd hr.symm hne'
          · intro c hc
            rcases List.mem_cons.mp hc with rfl | hc
            · exact hgt
            · exact hgt.trans (hm.1 c hc)
      have hsnd : e.2 = e'.2 := by
        have hr := hread e.1
        simpa [Memory.read, hfst] using hr
      have hee : e = e' := Prod.ext hfst hsnd
      subst hee
      congr 1
      refine ih ⟨hm.2, fun c hc => h.2 c (List.mem_cons_of_mem _ hc)⟩
        ⟨hm'.2, fun c hc => h'.2 c (List.mem_cons_of_mem _ hc)⟩ fun a => ?_
      by_cases ha : a = e.1
      · rw [ha, Memory.read_of_lt hm.1, Memory.read_of_lt hm'.1]
      · have hr := hread a
        simpa [Memory.read, ha] using hr

end Sys2Proof.Machine
end

