-- ==== Sys2Proof/Laws/State.lean ====
section
/-! SUPPORT. The frame of every named operation on State: one lemma per field it leaves alone (and the value of the
field it sets), so that no later proof unfolds a record update. -/

namespace Sys2Proof.Machine

/-- A fold keeps what each of its steps keeps. -/
theorem foldl_keeps {α β : Type} (g : State → α) (op : State → β → State)
    (h : ∀ s q, g (op s q) = g s) (l : List β) (s : State) : g (l.foldl op s) = g s := by
  induction l generalizing s with
  | nil => rfl
  | cons q l ih => rw [List.foldl_cons, ih, h]


/-! ### writeByte -/

@[simp] theorem State.writeByte_base (s : State) (sp : Space) (a : Nat) (v : Byte) :
    (s.writeByte sp a v).base = s.base := by cases sp <;> rfl
@[simp] theorem State.writeByte_bufw (s : State) (sp : Space) (a : Nat) (v : Byte) :
    (s.writeByte sp a v).bufw = s.bufw := by cases sp <;> rfl
@[simp] theorem State.writeByte_rx (s : State) (sp : Space) (a : Nat) (v : Byte) :
    (s.writeByte sp a v).rx = s.rx := by cases sp <;> rfl
@[simp] theorem State.writeByte_ry (s : State) (sp : Space) (a : Nat) (v : Byte) :
    (s.writeByte sp a v).ry = s.ry := by cases sp <;> rfl
@[simp] theorem State.writeByte_rw (s : State) (sp : Space) (a : Nat) (v : Byte) :
    (s.writeByte sp a v).rw = s.rw := by cases sp <;> rfl
@[simp] theorem State.writeByte_rh (s : State) (sp : Space) (a : Nat) (v : Byte) :
    (s.writeByte sp a v).rh = s.rh := by cases sp <;> rfl
@[simp] theorem State.writeByte_bpp (s : State) (sp : Space) (a : Nat) (v : Byte) :
    (s.writeByte sp a v).bpp = s.bpp := by cases sp <;> rfl
@[simp] theorem State.writeByte_lsrc (s : State) (sp : Space) (a : Nat) (v : Byte) :
    (s.writeByte sp a v).lsrc = s.lsrc := by cases sp <;> rfl
@[simp] theorem State.writeByte_ldst (s : State) (sp : Space) (a : Nat) (v : Byte) :
    (s.writeByte sp a v).ldst = s.ldst := by cases sp <;> rfl
@[simp] theorem State.writeByte_err (s : State) (sp : Space) (a : Nat) (v : Byte) :
    (s.writeByte sp a v).err = s.err := by cases sp <;> rfl
@[simp] theorem State.writeByte_sticky (s : State) (sp : Space) (a : Nat) (v : Byte) :
    (s.writeByte sp a v).sticky = s.sticky := by cases sp <;> rfl
@[simp] theorem State.writeByte_result (s : State) (sp : Space) (a : Nat) (v : Byte) :
    (s.writeByte sp a v).result = s.result := by cases sp <;> rfl
@[simp] theorem State.writeByte_plane0 (s : State) (sp : Space) (a : Nat) (v : Byte) :
    (s.writeByte sp a v).plane0 = s.plane0 := by cases sp <;> rfl
@[simp] theorem State.writeByte_lb0 (s : State) (sp : Space) (a : Nat) (v : Byte) :
    (s.writeByte sp a v).lb0 = s.lb0 := by cases sp <;> rfl
@[simp] theorem State.writeByte_lbSize (s : State) (sp : Space) (a : Nat) (v : Byte) :
    (s.writeByte sp a v).lbSize = s.lbSize := by cases sp <;> rfl
@[simp] theorem State.writeByte_agents (s : State) (sp : Space) (a : Nat) (v : Byte) :
    (s.writeByte sp a v).agents = s.agents := by cases sp <;> rfl
@[simp] theorem State.writeByte_turns (s : State) (sp : Space) (a : Nat) (v : Byte) :
    (s.writeByte sp a v).turns = s.turns := by cases sp <;> rfl
@[simp] theorem State.writeByte_linear_plane (s : State) (a : Nat) (v : Byte) :
    (s.writeByte .linear a v).plane = s.plane := rfl
@[simp] theorem State.writeByte_plane_linear (s : State) (a : Nat) (v : Byte) :
    (s.writeByte .plane a v).linear = s.linear := rfl

/-! ### writeBytes -/

@[simp] theorem State.writeBytes_base (s : State) (sp : Space) (a : Nat) (vs : List Byte) :
    (s.writeBytes sp a vs).base = s.base := by
  induction vs generalizing s a with
  | nil => rfl
  | cons v vs ih => rw [State.writeBytes, ih, State.writeByte_base]
@[simp] theorem State.writeBytes_bufw (s : State) (sp : Space) (a : Nat) (vs : List Byte) :
    (s.writeBytes sp a vs).bufw = s.bufw := by
  induction vs generalizing s a with
  | nil => rfl
  | cons v vs ih => rw [State.writeBytes, ih, State.writeByte_bufw]
@[simp] theorem State.writeBytes_rx (s : State) (sp : Space) (a : Nat) (vs : List Byte) :
    (s.writeBytes sp a vs).rx = s.rx := by
  induction vs generalizing s a with
  | nil => rfl
  | cons v vs ih => rw [State.writeBytes, ih, State.writeByte_rx]
@[simp] theorem State.writeBytes_ry (s : State) (sp : Space) (a : Nat) (vs : List Byte) :
    (s.writeBytes sp a vs).ry = s.ry := by
  induction vs generalizing s a with
  | nil => rfl
  | cons v vs ih => rw [State.writeBytes, ih, State.writeByte_ry]
@[simp] theorem State.writeBytes_rw (s : State) (sp : Space) (a : Nat) (vs : List Byte) :
    (s.writeBytes sp a vs).rw = s.rw := by
  induction vs generalizing s a with
  | nil => rfl
  | cons v vs ih => rw [State.writeBytes, ih, State.writeByte_rw]
@[simp] theorem State.writeBytes_rh (s : State) (sp : Space) (a : Nat) (vs : List Byte) :
    (s.writeBytes sp a vs).rh = s.rh := by
  induction vs generalizing s a with
  | nil => rfl
  | cons v vs ih => rw [State.writeBytes, ih, State.writeByte_rh]
@[simp] theorem State.writeBytes_bpp (s : State) (sp : Space) (a : Nat) (vs : List Byte) :
    (s.writeBytes sp a vs).bpp = s.bpp := by
  induction vs generalizing s a with
  | nil => rfl
  | cons v vs ih => rw [State.writeBytes, ih, State.writeByte_bpp]
@[simp] theorem State.writeBytes_lsrc (s : State) (sp : Space) (a : Nat) (vs : List Byte) :
    (s.writeBytes sp a vs).lsrc = s.lsrc := by
  induction vs generalizing s a with
  | nil => rfl
  | cons v vs ih => rw [State.writeBytes, ih, State.writeByte_lsrc]
@[simp] theorem State.writeBytes_ldst (s : State) (sp : Space) (a : Nat) (vs : List Byte) :
    (s.writeBytes sp a vs).ldst = s.ldst := by
  induction vs generalizing s a with
  | nil => rfl
  | cons v vs ih => rw [State.writeBytes, ih, State.writeByte_ldst]
@[simp] theorem State.writeBytes_err (s : State) (sp : Space) (a : Nat) (vs : List Byte) :
    (s.writeBytes sp a vs).err = s.err := by
  induction vs generalizing s a with
  | nil => rfl
  | cons v vs ih => rw [State.writeBytes, ih, State.writeByte_err]
@[simp] theorem State.writeBytes_sticky (s : State) (sp : Space) (a : Nat) (vs : List Byte) :
    (s.writeBytes sp a vs).sticky = s.sticky := by
  induction vs generalizing s a with
  | nil => rfl
  | cons v vs ih => rw [State.writeBytes, ih, State.writeByte_sticky]
@[simp] theorem State.writeBytes_result (s : State) (sp : Space) (a : Nat) (vs : List Byte) :
    (s.writeBytes sp a vs).result = s.result := by
  induction vs generalizing s a with
  | nil => rfl
  | cons v vs ih => rw [State.writeBytes, ih, State.writeByte_result]
@[simp] theorem State.writeBytes_plane0 (s : State) (sp : Space) (a : Nat) (vs : List Byte) :
    (s.writeBytes sp a vs).plane0 = s.plane0 := by
  induction vs generalizing s a with
  | nil => rfl
  | cons v vs ih => rw [State.writeBytes, ih, State.writeByte_plane0]
@[simp] theorem State.writeBytes_lb0 (s : State) (sp : Space) (a : Nat) (vs : List Byte) :
    (s.writeBytes sp a vs).lb0 = s.lb0 := by
  induction vs generalizing s a with
  | nil => rfl
  | cons v vs ih => rw [State.writeBytes, ih, State.writeByte_lb0]
@[simp] theorem State.writeBytes_lbSize (s : State) (sp : Space) (a : Nat) (vs : List Byte) :
    (s.writeBytes sp a vs).lbSize = s.lbSize := by
  induction vs generalizing s a with
  | nil => rfl
  | cons v vs ih => rw [State.writeBytes, ih, State.writeByte_lbSize]
@[simp] theorem State.writeBytes_agents (s : State) (sp : Space) (a : Nat) (vs : List Byte) :
    (s.writeBytes sp a vs).agents = s.agents := by
  induction vs generalizing s a with
  | nil => rfl
  | cons v vs ih => rw [State.writeBytes, ih, State.writeByte_agents]
@[simp] theorem State.writeBytes_turns (s : State) (sp : Space) (a : Nat) (vs : List Byte) :
    (s.writeBytes sp a vs).turns = s.turns := by
  induction vs generalizing s a with
  | nil => rfl
  | cons v vs ih => rw [State.writeBytes, ih, State.writeByte_turns]
@[simp] theorem State.writeBytes_linear_plane (s : State) (a : Nat) (vs : List Byte) :
    (s.writeBytes .linear a vs).plane = s.plane := by
  induction vs generalizing s a with
  | nil => rfl
  | cons v vs ih => rw [State.writeBytes, ih, State.writeByte_linear_plane]
@[simp] theorem State.writeBytes_plane_linear (s : State) (a : Nat) (vs : List Byte) :
    (s.writeBytes .plane a vs).linear = s.linear := by
  induction vs generalizing s a with
  | nil => rfl
  | cons v vs ih => rw [State.writeBytes, ih, State.writeByte_plane_linear]

/-! ### writeNibble -/

@[simp] theorem State.writeNibble_base (s : State) (sp : Space) (a h : Nat) (v : Nibble) :
    (s.writeNibble sp a h v).base = s.base := State.writeByte_base s sp a _
@[simp] theorem State.writeNibble_bufw (s : State) (sp : Space) (a h : Nat) (v : Nibble) :
    (s.writeNibble sp a h v).bufw = s.bufw := State.writeByte_bufw s sp a _
@[simp] theorem State.writeNibble_rx (s : State) (sp : Space) (a h : Nat) (v : Nibble) :
    (s.writeNibble sp a h v).rx = s.rx := State.writeByte_rx s sp a _
@[simp] theorem State.writeNibble_ry (s : State) (sp : Space) (a h : Nat) (v : Nibble) :
    (s.writeNibble sp a h v).ry = s.ry := State.writeByte_ry s sp a _
@[simp] theorem State.writeNibble_rw (s : State) (sp : Space) (a h : Nat) (v : Nibble) :
    (s.writeNibble sp a h v).rw = s.rw := State.writeByte_rw s sp a _
@[simp] theorem State.writeNibble_rh (s : State) (sp : Space) (a h : Nat) (v : Nibble) :
    (s.writeNibble sp a h v).rh = s.rh := State.writeByte_rh s sp a _
@[simp] theorem State.writeNibble_bpp (s : State) (sp : Space) (a h : Nat) (v : Nibble) :
    (s.writeNibble sp a h v).bpp = s.bpp := State.writeByte_bpp s sp a _
@[simp] theorem State.writeNibble_lsrc (s : State) (sp : Space) (a h : Nat) (v : Nibble) :
    (s.writeNibble sp a h v).lsrc = s.lsrc := State.writeByte_lsrc s sp a _
@[simp] theorem State.writeNibble_ldst (s : State) (sp : Space) (a h : Nat) (v : Nibble) :
    (s.writeNibble sp a h v).ldst = s.ldst := State.writeByte_ldst s sp a _
@[simp] theorem State.writeNibble_err (s : State) (sp : Space) (a h : Nat) (v : Nibble) :
    (s.writeNibble sp a h v).err = s.err := State.writeByte_err s sp a _
@[simp] theorem State.writeNibble_sticky (s : State) (sp : Space) (a h : Nat) (v : Nibble) :
    (s.writeNibble sp a h v).sticky = s.sticky := State.writeByte_sticky s sp a _
@[simp] theorem State.writeNibble_result (s : State) (sp : Space) (a h : Nat) (v : Nibble) :
    (s.writeNibble sp a h v).result = s.result := State.writeByte_result s sp a _
@[simp] theorem State.writeNibble_plane0 (s : State) (sp : Space) (a h : Nat) (v : Nibble) :
    (s.writeNibble sp a h v).plane0 = s.plane0 := State.writeByte_plane0 s sp a _
@[simp] theorem State.writeNibble_lb0 (s : State) (sp : Space) (a h : Nat) (v : Nibble) :
    (s.writeNibble sp a h v).lb0 = s.lb0 := State.writeByte_lb0 s sp a _
@[simp] theorem State.writeNibble_lbSize (s : State) (sp : Space) (a h : Nat) (v : Nibble) :
    (s.writeNibble sp a h v).lbSize = s.lbSize := State.writeByte_lbSize s sp a _
@[simp] theorem State.writeNibble_agents (s : State) (sp : Space) (a h : Nat) (v : Nibble) :
    (s.writeNibble sp a h v).agents = s.agents := State.writeByte_agents s sp a _
@[simp] theorem State.writeNibble_turns (s : State) (sp : Space) (a h : Nat) (v : Nibble) :
    (s.writeNibble sp a h v).turns = s.turns := State.writeByte_turns s sp a _
@[simp] theorem State.writeNibble_linear_plane (s : State) (a h : Nat) (v : Nibble) :
    (s.writeNibble .linear a h v).plane = s.plane := rfl
@[simp] theorem State.writeNibble_plane_linear (s : State) (a h : Nat) (v : Nibble) :
    (s.writeNibble .plane a h v).linear = s.linear := rfl

/-! ### setResult -/

@[simp] theorem State.setResult_base (s : State) (p : PixelAddr) :
    (s.setResult p).base = s.base := rfl
@[simp] theorem State.setResult_bufw (s : State) (p : PixelAddr) :
    (s.setResult p).bufw = s.bufw := rfl
@[simp] theorem State.setResult_rx (s : State) (p : PixelAddr) :
    (s.setResult p).rx = s.rx := rfl
@[simp] theorem State.setResult_ry (s : State) (p : PixelAddr) :
    (s.setResult p).ry = s.ry := rfl
@[simp] theorem State.setResult_rw (s : State) (p : PixelAddr) :
    (s.setResult p).rw = s.rw := rfl
@[simp] theorem State.setResult_rh (s : State) (p : PixelAddr) :
    (s.setResult p).rh = s.rh := rfl
@[simp] theorem State.setResult_bpp (s : State) (p : PixelAddr) :
    (s.setResult p).bpp = s.bpp := rfl
@[simp] theorem State.setResult_lsrc (s : State) (p : PixelAddr) :
    (s.setResult p).lsrc = s.lsrc := rfl
@[simp] theorem State.setResult_ldst (s : State) (p : PixelAddr) :
    (s.setResult p).ldst = s.ldst := rfl
@[simp] theorem State.setResult_err (s : State) (p : PixelAddr) :
    (s.setResult p).err = s.err := rfl
@[simp] theorem State.setResult_sticky (s : State) (p : PixelAddr) :
    (s.setResult p).sticky = s.sticky := rfl
@[simp] theorem State.setResult_plane (s : State) (p : PixelAddr) :
    (s.setResult p).plane = s.plane := rfl
@[simp] theorem State.setResult_linear (s : State) (p : PixelAddr) :
    (s.setResult p).linear = s.linear := rfl
@[simp] theorem State.setResult_plane0 (s : State) (p : PixelAddr) :
    (s.setResult p).plane0 = s.plane0 := rfl
@[simp] theorem State.setResult_lb0 (s : State) (p : PixelAddr) :
    (s.setResult p).lb0 = s.lb0 := rfl
@[simp] theorem State.setResult_lbSize (s : State) (p : PixelAddr) :
    (s.setResult p).lbSize = s.lbSize := rfl
@[simp] theorem State.setResult_agents (s : State) (p : PixelAddr) :
    (s.setResult p).agents = s.agents := rfl
@[simp] theorem State.setResult_turns (s : State) (p : PixelAddr) :
    (s.setResult p).turns = s.turns := rfl
@[simp] theorem State.setResult_result (s : State) (p : PixelAddr) :
    (s.setResult p).result = BitVec.ofNat 23 (p.offset ||| (p.half <<< 22)) := rfl

/-! ### complete -/

@[simp] theorem State.complete_base (s : State) (e : ErrorCode) :
    (s.complete e).base = s.base := rfl
@[simp] theorem State.complete_bufw (s : State) (e : ErrorCode) :
    (s.complete e).bufw = s.bufw := rfl
@[simp] theorem State.complete_rx (s : State) (e : ErrorCode) :
    (s.complete e).rx = s.rx := rfl
@[simp] theorem State.complete_ry (s : State) (e : ErrorCode) :
    (s.complete e).ry = s.ry := rfl
@[simp] theorem State.complete_rw (s : State) (e : ErrorCode) :
    (s.complete e).rw = s.rw := rfl
@[simp] theorem State.complete_rh (s : State) (e : ErrorCode) :
    (s.complete e).rh = s.rh := rfl
@[simp] theorem State.complete_bpp (s : State) (e : ErrorCode) :
    (s.complete e).bpp = s.bpp := rfl
@[simp] theorem State.complete_lsrc (s : State) (e : ErrorCode) :
    (s.complete e).lsrc = s.lsrc := rfl
@[simp] theorem State.complete_ldst (s : State) (e : ErrorCode) :
    (s.complete e).ldst = s.ldst := rfl
@[simp] theorem State.complete_result (s : State) (e : ErrorCode) :
    (s.complete e).result = s.result := rfl
@[simp] theorem State.complete_plane (s : State) (e : ErrorCode) :
    (s.complete e).plane = s.plane := rfl
@[simp] theorem State.complete_linear (s : State) (e : ErrorCode) :
    (s.complete e).linear = s.linear := rfl
@[simp] theorem State.complete_plane0 (s : State) (e : ErrorCode) :
    (s.complete e).plane0 = s.plane0 := rfl
@[simp] theorem State.complete_lb0 (s : State) (e : ErrorCode) :
    (s.complete e).lb0 = s.lb0 := rfl
@[simp] theorem State.complete_lbSize (s : State) (e : ErrorCode) :
    (s.complete e).lbSize = s.lbSize := rfl
@[simp] theorem State.complete_agents (s : State) (e : ErrorCode) :
    (s.complete e).agents = s.agents := rfl
@[simp] theorem State.complete_turns (s : State) (e : ErrorCode) :
    (s.complete e).turns = s.turns := rfl
@[simp] theorem State.complete_err (s : State) (e : ErrorCode) :
    (s.complete e).err = e := rfl
@[simp] theorem State.complete_sticky (s : State) (e : ErrorCode) :
    (s.complete e).sticky = (s.sticky || e != .ok) := rfl

/-! ### takeReset -/

@[simp] theorem State.takeReset_base (s : State) (p : List Byte) :
    (s.takeReset p).base = 0 := rfl
@[simp] theorem State.takeReset_bufw (s : State) (p : List Byte) :
    (s.takeReset p).bufw = 0 := rfl
@[simp] theorem State.takeReset_rx (s : State) (p : List Byte) :
    (s.takeReset p).rx = 0 := rfl
@[simp] theorem State.takeReset_ry (s : State) (p : List Byte) :
    (s.takeReset p).ry = 0 := rfl
@[simp] theorem State.takeReset_rw (s : State) (p : List Byte) :
    (s.takeReset p).rw = 0 := rfl
@[simp] theorem State.takeReset_rh (s : State) (p : List Byte) :
    (s.takeReset p).rh = 0 := rfl
@[simp] theorem State.takeReset_bpp (s : State) (p : List Byte) :
    (s.takeReset p).bpp = 0 := rfl
@[simp] theorem State.takeReset_lsrc (s : State) (p : List Byte) :
    (s.takeReset p).lsrc = 0 := rfl
@[simp] theorem State.takeReset_ldst (s : State) (p : List Byte) :
    (s.takeReset p).ldst = 0 := rfl
@[simp] theorem State.takeReset_err (s : State) (p : List Byte) :
    (s.takeReset p).err = .ok := rfl
@[simp] theorem State.takeReset_sticky (s : State) (p : List Byte) :
    (s.takeReset p).sticky = false := rfl
@[simp] theorem State.takeReset_result (s : State) (p : List Byte) :
    (s.takeReset p).result = 0 := rfl
@[simp] theorem State.takeReset_plane (s : State) (p : List Byte) :
    (s.takeReset p).plane = [] := rfl
@[simp] theorem State.takeReset_linear (s : State) (p : List Byte) :
    (s.takeReset p).linear = s.linear := rfl
@[simp] theorem State.takeReset_plane0 (s : State) (p : List Byte) :
    (s.takeReset p).plane0 = p := rfl
@[simp] theorem State.takeReset_lb0 (s : State) (p : List Byte) :
    (s.takeReset p).lb0 = s.lb0 := rfl
@[simp] theorem State.takeReset_lbSize (s : State) (p : List Byte) :
    (s.takeReset p).lbSize = s.lbSize := rfl
@[simp] theorem State.takeReset_agents (s : State) (p : List Byte) :
    (s.takeReset p).agents = s.agents := rfl
@[simp] theorem State.takeReset_turns (s : State) (p : List Byte) :
    (s.takeReset p).turns = s.turns := rfl

/-! ### returnTo -/

@[simp] theorem State.returnTo_base (s : State) (h : Nat) (x : Seen) :
    (s.returnTo h x).base = s.base := by unfold State.returnTo; split <;> rfl
@[simp] theorem State.returnTo_bufw (s : State) (h : Nat) (x : Seen) :
    (s.returnTo h x).bufw = s.bufw := by unfold State.returnTo; split <;> rfl
@[simp] theorem State.returnTo_rx (s : State) (h : Nat) (x : Seen) :
    (s.returnTo h x).rx = s.rx := by unfold State.returnTo; split <;> rfl
@[simp] theorem State.returnTo_ry (s : State) (h : Nat) (x : Seen) :
    (s.returnTo h x).ry = s.ry := by unfold State.returnTo; split <;> rfl
@[simp] theorem State.returnTo_rw (s : State) (h : Nat) (x : Seen) :
    (s.returnTo h x).rw = s.rw := by unfold State.returnTo; split <;> rfl
@[simp] theorem State.returnTo_rh (s : State) (h : Nat) (x : Seen) :
    (s.returnTo h x).rh = s.rh := by unfold State.returnTo; split <;> rfl
@[simp] theorem State.returnTo_bpp (s : State) (h : Nat) (x : Seen) :
    (s.returnTo h x).bpp = s.bpp := by unfold State.returnTo; split <;> rfl
@[simp] theorem State.returnTo_lsrc (s : State) (h : Nat) (x : Seen) :
    (s.returnTo h x).lsrc = s.lsrc := by unfold State.returnTo; split <;> rfl
@[simp] theorem State.returnTo_ldst (s : State) (h : Nat) (x : Seen) :
    (s.returnTo h x).ldst = s.ldst := by unfold State.returnTo; split <;> rfl
@[simp] theorem State.returnTo_err (s : State) (h : Nat) (x : Seen) :
    (s.returnTo h x).err = s.err := by unfold State.returnTo; split <;> rfl
@[simp] theorem State.returnTo_sticky (s : State) (h : Nat) (x : Seen) :
    (s.returnTo h x).sticky = s.sticky := by unfold State.returnTo; split <;> rfl
@[simp] theorem State.returnTo_result (s : State) (h : Nat) (x : Seen) :
    (s.returnTo h x).result = s.result := by unfold State.returnTo; split <;> rfl
@[simp] theorem State.returnTo_plane (s : State) (h : Nat) (x : Seen) :
    (s.returnTo h x).plane = s.plane := by unfold State.returnTo; split <;> rfl
@[simp] theorem State.returnTo_linear (s : State) (h : Nat) (x : Seen) :
    (s.returnTo h x).linear = s.linear := by unfold State.returnTo; split <;> rfl
@[simp] theorem State.returnTo_plane0 (s : State) (h : Nat) (x : Seen) :
    (s.returnTo h x).plane0 = s.plane0 := by unfold State.returnTo; split <;> rfl
@[simp] theorem State.returnTo_lb0 (s : State) (h : Nat) (x : Seen) :
    (s.returnTo h x).lb0 = s.lb0 := by unfold State.returnTo; split <;> rfl
@[simp] theorem State.returnTo_lbSize (s : State) (h : Nat) (x : Seen) :
    (s.returnTo h x).lbSize = s.lbSize := by unfold State.returnTo; split <;> rfl
@[simp] theorem State.returnTo_turns (s : State) (h : Nat) (x : Seen) :
    (s.returnTo h x).turns = s.turns := by unfold State.returnTo; split <;> rfl

/-! ### the passes -/

@[simp] theorem writePixel_base (f : Format) (p : Pass) (s : State) (q : Nat × Nat) :
    (writePixel f p s q).base = s.base := by cases f <;> simp [writePixel]
@[simp] theorem writePixel_bufw (f : Format) (p : Pass) (s : State) (q : Nat × Nat) :
    (writePixel f p s q).bufw = s.bufw := by cases f <;> simp [writePixel]
@[simp] theorem writePixel_rx (f : Format) (p : Pass) (s : State) (q : Nat × Nat) :
    (writePixel f p s q).rx = s.rx := by cases f <;> simp [writePixel]
@[simp] theorem writePixel_ry (f : Format) (p : Pass) (s : State) (q : Nat × Nat) :
    (writePixel f p s q).ry = s.ry := by cases f <;> simp [writePixel]
@[simp] theorem writePixel_rw (f : Format) (p : Pass) (s : State) (q : Nat × Nat) :
    (writePixel f p s q).rw = s.rw := by cases f <;> simp [writePixel]
@[simp] theorem writePixel_rh (f : Format) (p : Pass) (s : State) (q : Nat × Nat) :
    (writePixel f p s q).rh = s.rh := by cases f <;> simp [writePixel]
@[simp] theorem writePixel_bpp (f : Format) (p : Pass) (s : State) (q : Nat × Nat) :
    (writePixel f p s q).bpp = s.bpp := by cases f <;> simp [writePixel]
@[simp] theorem writePixel_lsrc (f : Format) (p : Pass) (s : State) (q : Nat × Nat) :
    (writePixel f p s q).lsrc = s.lsrc := by cases f <;> simp [writePixel]
@[simp] theorem writePixel_ldst (f : Format) (p : Pass) (s : State) (q : Nat × Nat) :
    (writePixel f p s q).ldst = s.ldst := by cases f <;> simp [writePixel]
@[simp] theorem writePixel_err (f : Format) (p : Pass) (s : State) (q : Nat × Nat) :
    (writePixel f p s q).err = s.err := by cases f <;> simp [writePixel]
@[simp] theorem writePixel_sticky (f : Format) (p : Pass) (s : State) (q : Nat × Nat) :
    (writePixel f p s q).sticky = s.sticky := by cases f <;> simp [writePixel]
@[simp] theorem writePixel_result (f : Format) (p : Pass) (s : State) (q : Nat × Nat) :
    (writePixel f p s q).result = s.result := by cases f <;> simp [writePixel]
@[simp] theorem writePixel_linear (f : Format) (p : Pass) (s : State) (q : Nat × Nat) :
    (writePixel f p s q).linear = s.linear := by cases f <;> simp [writePixel]
@[simp] theorem writePixel_plane0 (f : Format) (p : Pass) (s : State) (q : Nat × Nat) :
    (writePixel f p s q).plane0 = s.plane0 := by cases f <;> simp [writePixel]
@[simp] theorem writePixel_lb0 (f : Format) (p : Pass) (s : State) (q : Nat × Nat) :
    (writePixel f p s q).lb0 = s.lb0 := by cases f <;> simp [writePixel]
@[simp] theorem writePixel_lbSize (f : Format) (p : Pass) (s : State) (q : Nat × Nat) :
    (writePixel f p s q).lbSize = s.lbSize := by cases f <;> simp [writePixel]
@[simp] theorem writePixel_agents (f : Format) (p : Pass) (s : State) (q : Nat × Nat) :
    (writePixel f p s q).agents = s.agents := by cases f <;> simp [writePixel]
@[simp] theorem writePixel_turns (f : Format) (p : Pass) (s : State) (q : Nat × Nat) :
    (writePixel f p s q).turns = s.turns := by cases f <;> simp [writePixel]
@[simp] theorem readPixel_base (f : Format) (p : Pass) (s : State) (q : Nat × Nat) :
    (readPixel f p s q).base = s.base := by cases f <;> simp [readPixel]
@[simp] theorem readPixel_bufw (f : Format) (p : Pass) (s : State) (q : Nat × Nat) :
    (readPixel f p s q).bufw = s.bufw := by cases f <;> simp [readPixel]
@[simp] theorem readPixel_rx (f : Format) (p : Pass) (s : State) (q : Nat × Nat) :
    (readPixel f p s q).rx = s.rx := by cases f <;> simp [readPixel]
@[simp] theorem readPixel_ry (f : Format) (p : Pass) (s : State) (q : Nat × Nat) :
    (readPixel f p s q).ry = s.ry := by cases f <;> simp [readPixel]
@[simp] theorem readPixel_rw (f : Format) (p : Pass) (s : State) (q : Nat × Nat) :
    (readPixel f p s q).rw = s.rw := by cases f <;> simp [readPixel]
@[simp] theorem readPixel_rh (f : Format) (p : Pass) (s : State) (q : Nat × Nat) :
    (readPixel f p s q).rh = s.rh := by cases f <;> simp [readPixel]
@[simp] theorem readPixel_bpp (f : Format) (p : Pass) (s : State) (q : Nat × Nat) :
    (readPixel f p s q).bpp = s.bpp := by cases f <;> simp [readPixel]
@[simp] theorem readPixel_lsrc (f : Format) (p : Pass) (s : State) (q : Nat × Nat) :
    (readPixel f p s q).lsrc = s.lsrc := by cases f <;> simp [readPixel]
@[simp] theorem readPixel_ldst (f : Format) (p : Pass) (s : State) (q : Nat × Nat) :
    (readPixel f p s q).ldst = s.ldst := by cases f <;> simp [readPixel]
@[simp] theorem readPixel_err (f : Format) (p : Pass) (s : State) (q : Nat × Nat) :
    (readPixel f p s q).err = s.err := by cases f <;> simp [readPixel]
@[simp] theorem readPixel_sticky (f : Format) (p : Pass) (s : State) (q : Nat × Nat) :
    (readPixel f p s q).sticky = s.sticky := by cases f <;> simp [readPixel]
@[simp] theorem readPixel_result (f : Format) (p : Pass) (s : State) (q : Nat × Nat) :
    (readPixel f p s q).result = s.result := by cases f <;> simp [readPixel]
@[simp] theorem readPixel_plane (f : Format) (p : Pass) (s : State) (q : Nat × Nat) :
    (readPixel f p s q).plane = s.plane := by cases f <;> simp [readPixel]
@[simp] theorem readPixel_plane0 (f : Format) (p : Pass) (s : State) (q : Nat × Nat) :
    (readPixel f p s q).plane0 = s.plane0 := by cases f <;> simp [readPixel]
@[simp] theorem readPixel_lb0 (f : Format) (p : Pass) (s : State) (q : Nat × Nat) :
    (readPixel f p s q).lb0 = s.lb0 := by cases f <;> simp [readPixel]
@[simp] theorem readPixel_lbSize (f : Format) (p : Pass) (s : State) (q : Nat × Nat) :
    (readPixel f p s q).lbSize = s.lbSize := by cases f <;> simp [readPixel]
@[simp] theorem readPixel_agents (f : Format) (p : Pass) (s : State) (q : Nat × Nat) :
    (readPixel f p s q).agents = s.agents := by cases f <;> simp [readPixel]
@[simp] theorem readPixel_turns (f : Format) (p : Pass) (s : State) (q : Nat × Nat) :
    (readPixel f p s q).turns = s.turns := by cases f <;> simp [readPixel]
@[simp] theorem writerPass_base (f : Format) (p : Pass) (s : State) :
    (writerPass f p s).base = s.base := foldl_keeps State.base _ (writePixel_base f p) _ s
@[simp] theorem writerPass_bufw (f : Format) (p : Pass) (s : State) :
    (writerPass f p s).bufw = s.bufw := foldl_keeps State.bufw _ (writePixel_bufw f p) _ s
@[simp] theorem writerPass_rx (f : Format) (p : Pass) (s : State) :
    (writerPass f p s).rx = s.rx := foldl_keeps State.rx _ (writePixel_rx f p) _ s
@[simp] theorem writerPass_ry (f : Format) (p : Pass) (s : State) :
    (writerPass f p s).ry = s.ry := foldl_keeps State.ry _ (writePixel_ry f p) _ s
@[simp] theorem writerPass_rw (f : Format) (p : Pass) (s : State) :
    (writerPass f p s).rw = s.rw := foldl_keeps State.rw _ (writePixel_rw f p) _ s
@[simp] theorem writerPass_rh (f : Format) (p : Pass) (s : State) :
    (writerPass f p s).rh = s.rh := foldl_keeps State.rh _ (writePixel_rh f p) _ s
@[simp] theorem writerPass_bpp (f : Format) (p : Pass) (s : State) :
    (writerPass f p s).bpp = s.bpp := foldl_keeps State.bpp _ (writePixel_bpp f p) _ s
@[simp] theorem writerPass_lsrc (f : Format) (p : Pass) (s : State) :
    (writerPass f p s).lsrc = s.lsrc := foldl_keeps State.lsrc _ (writePixel_lsrc f p) _ s
@[simp] theorem writerPass_ldst (f : Format) (p : Pass) (s : State) :
    (writerPass f p s).ldst = s.ldst := foldl_keeps State.ldst _ (writePixel_ldst f p) _ s
@[simp] theorem writerPass_err (f : Format) (p : Pass) (s : State) :
    (writerPass f p s).err = s.err := foldl_keeps State.err _ (writePixel_err f p) _ s
@[simp] theorem writerPass_sticky (f : Format) (p : Pass) (s : State) :
    (writerPass f p s).sticky = s.sticky := foldl_keeps State.sticky _ (writePixel_sticky f p) _ s
@[simp] theorem writerPass_result (f : Format) (p : Pass) (s : State) :
    (writerPass f p s).result = s.result := foldl_keeps State.result _ (writePixel_result f p) _ s
@[simp] theorem writerPass_linear (f : Format) (p : Pass) (s : State) :
    (writerPass f p s).linear = s.linear := foldl_keeps State.linear _ (writePixel_linear f p) _ s
@[simp] theorem writerPass_plane0 (f : Format) (p : Pass) (s : State) :
    (writerPass f p s).plane0 = s.plane0 := foldl_keeps State.plane0 _ (writePixel_plane0 f p) _ s
@[simp] theorem writerPass_lb0 (f : Format) (p : Pass) (s : State) :
    (writerPass f p s).lb0 = s.lb0 := foldl_keeps State.lb0 _ (writePixel_lb0 f p) _ s
@[simp] theorem writerPass_lbSize (f : Format) (p : Pass) (s : State) :
    (writerPass f p s).lbSize = s.lbSize := foldl_keeps State.lbSize _ (writePixel_lbSize f p) _ s
@[simp] theorem writerPass_agents (f : Format) (p : Pass) (s : State) :
    (writerPass f p s).agents = s.agents := foldl_keeps State.agents _ (writePixel_agents f p) _ s
@[simp] theorem writerPass_turns (f : Format) (p : Pass) (s : State) :
    (writerPass f p s).turns = s.turns := foldl_keeps State.turns _ (writePixel_turns f p) _ s
@[simp] theorem readerPass_base (f : Format) (p : Pass) (s : State) :
    (readerPass f p s).base = s.base := foldl_keeps State.base _ (readPixel_base f p) _ s
@[simp] theorem readerPass_bufw (f : Format) (p : Pass) (s : State) :
    (readerPass f p s).bufw = s.bufw := foldl_keeps State.bufw _ (readPixel_bufw f p) _ s
@[simp] theorem readerPass_rx (f : Format) (p : Pass) (s : State) :
    (readerPass f p s).rx = s.rx := foldl_keeps State.rx _ (readPixel_rx f p) _ s
@[simp] theorem readerPass_ry (f : Format) (p : Pass) (s : State) :
    (readerPass f p s).ry = s.ry := foldl_keeps State.ry _ (readPixel_ry f p) _ s
@[simp] theorem readerPass_rw (f : Format) (p : Pass) (s : State) :
    (readerPass f p s).rw = s.rw := foldl_keeps State.rw _ (readPixel_rw f p) _ s
@[simp] theorem readerPass_rh (f : Format) (p : Pass) (s : State) :
    (readerPass f p s).rh = s.rh := foldl_keeps State.rh _ (readPixel_rh f p) _ s
@[simp] theorem readerPass_bpp (f : Format) (p : Pass) (s : State) :
    (readerPass f p s).bpp = s.bpp := foldl_keeps State.bpp _ (readPixel_bpp f p) _ s
@[simp] theorem readerPass_lsrc (f : Format) (p : Pass) (s : State) :
    (readerPass f p s).lsrc = s.lsrc := foldl_keeps State.lsrc _ (readPixel_lsrc f p) _ s
@[simp] theorem readerPass_ldst (f : Format) (p : Pass) (s : State) :
    (readerPass f p s).ldst = s.ldst := foldl_keeps State.ldst _ (readPixel_ldst f p) _ s
@[simp] theorem readerPass_err (f : Format) (p : Pass) (s : State) :
    (readerPass f p s).err = s.err := foldl_keeps State.err _ (readPixel_err f p) _ s
@[simp] theorem readerPass_sticky (f : Format) (p : Pass) (s : State) :
    (readerPass f p s).sticky = s.sticky := foldl_keeps State.sticky _ (readPixel_sticky f p) _ s
@[simp] theorem readerPass_result (f : Format) (p : Pass) (s : State) :
    (readerPass f p s).result = s.result := foldl_keeps State.result _ (readPixel_result f p) _ s
@[simp] theorem readerPass_plane (f : Format) (p : Pass) (s : State) :
    (readerPass f p s).plane = s.plane := foldl_keeps State.plane _ (readPixel_plane f p) _ s
@[simp] theorem readerPass_plane0 (f : Format) (p : Pass) (s : State) :
    (readerPass f p s).plane0 = s.plane0 := foldl_keeps State.plane0 _ (readPixel_plane0 f p) _ s
@[simp] theorem readerPass_lb0 (f : Format) (p : Pass) (s : State) :
    (readerPass f p s).lb0 = s.lb0 := foldl_keeps State.lb0 _ (readPixel_lb0 f p) _ s
@[simp] theorem readerPass_lbSize (f : Format) (p : Pass) (s : State) :
    (readerPass f p s).lbSize = s.lbSize := foldl_keeps State.lbSize _ (readPixel_lbSize f p) _ s
@[simp] theorem readerPass_agents (f : Format) (p : Pass) (s : State) :
    (readerPass f p s).agents = s.agents := foldl_keeps State.agents _ (readPixel_agents f p) _ s
@[simp] theorem readerPass_turns (f : Format) (p : Pass) (s : State) :
    (readerPass f p s).turns = s.turns := foldl_keeps State.turns _ (readPixel_turns f p) _ s

end Sys2Proof.Machine
end

