-- ==== Sys2Proof/Laws/Ops.lean ====
section
/-! SUPPORT. What the named operations over the two memories do: reads after writes of bytes, byte runs and nibbles,
and the canonical form. -/

namespace Sys2Proof.Machine

theorem State.initial_eq {s t : State} (hp : t.plane0 = s.plane0) (hl : t.lb0 = s.lb0) :
    t.initial = s.initial := by
  funext sp a
  cases sp <;> simp [State.initial, hp, hl]

/-- A byte read depends on that memory and its first content alone. -/
theorem State.readByte_plane_congr {s t : State} (h : t.plane = s.plane) (h0 : t.plane0 = s.plane0) (a : Nat) :
    t.readByte .plane a = s.readByte .plane a := by
  have : t.initial .plane = s.initial .plane := by funext b; simp [State.initial, h0]
  simp [State.readByte, h, this]

theorem State.readByte_linear_congr {s t : State} (h : t.linear = s.linear) (h0 : t.lb0 = s.lb0) (a : Nat) :
    t.readByte .linear a = s.readByte .linear a := by
  have : t.initial .linear = s.initial .linear := by funext b; simp [State.initial, h0]
  simp [State.readByte, h, this]

@[simp] theorem State.readByte_complete (s : State) (e : ErrorCode) (sp : Space) (a : Nat) :
    (s.complete e).readByte sp a = s.readByte sp a := by cases sp <;> rfl

@[simp] theorem State.readByte_setResult (s : State) (p : PixelAddr) (sp : Space) (a : Nat) :
    (s.setResult p).readByte sp a = s.readByte sp a := by cases sp <;> rfl

@[simp] theorem State.readByte_returnTo (s : State) (h : Nat) (x : Seen) (sp : Space) (a : Nat) :
    (s.returnTo h x).readByte sp a = s.readByte sp a := by
  cases sp
  · exact State.readByte_plane_congr (by simp) (by simp) a
  · exact State.readByte_linear_congr (by simp) (by simp) a

/-! ### Bytes -/

/-- Read after a byte write. -/
theorem State.readByte_writeByte (s : State) (sp : Space) (a b : Nat) (v : Byte) :
    (s.writeByte sp a v).readByte sp b = if b = a then v else s.readByte sp b := by
  cases sp <;> exact Memory.read_write _ _ _ _ _

@[simp] theorem State.readByte_writeByte_linear_plane (s : State) (a b : Nat) (v : Byte) :
    (s.writeByte .linear a v).readByte .plane b = s.readByte .plane b := rfl

@[simp] theorem State.readByte_writeByte_plane_linear (s : State) (a b : Nat) (v : Byte) :
    (s.writeByte .plane a v).readByte .linear b = s.readByte .linear b := rfl

/-! ### Byte runs -/

@[simp] theorem State.readBytes_length (s : State) (sp : Space) (a n : Nat) :
    (s.readBytes sp a n).length = n := by simp [State.readBytes]

theorem State.readBytes_getD (s : State) (sp : Space) (a n i : Nat) (h : i < n) :
    (s.readBytes sp a n).getD i 0 = s.readByte sp (a + i) := by
  simp [State.readBytes, List.getD_eq_getElem?_getD, h]

theorem State.readBytes_congr {s t : State} {sp : Space} (h : ∀ a, t.readByte sp a = s.readByte sp a) (a n : Nat) :
    t.readBytes sp a n = s.readBytes sp a n := by simp [State.readBytes, h]

/-- Read after a run of byte writes: the run's bytes in its range, every other byte as before. -/
theorem State.readByte_writeBytes (s : State) (sp : Space) (a b : Nat) (vs : List Byte) :
    (s.writeBytes sp a vs).readByte sp b =
      if a ≤ b ∧ b < a + vs.length then vs.getD (b - a) 0 else s.readByte sp b := by
  induction vs generalizing s a with
  | nil =>
    have : ¬(a ≤ b ∧ b < a) := by omega
    simp [State.writeBytes, this]
  | cons v vs ih =>
    rw [State.writeBytes, ih, State.readByte_writeByte]
    by_cases hb : b = a
    · subst hb
      simp
    · by_cases hin : a + 1 ≤ b ∧ b < a + 1 + vs.length
      · have hin' : a ≤ b ∧ b < a + (v :: vs).length := by simp; omega
        have hsub : b - a = b - (a + 1) + 1 := by omega
        rw [if_pos hin, if_pos hin', hsub, List.getD_cons_succ]
      · have hout : ¬(a ≤ b ∧ b < a + (v :: vs).length) := by simp; omega
        rw [if_neg hin, if_neg hout, if_neg hb]

@[simp] theorem State.readByte_writeBytes_linear_plane (s : State) (a b : Nat) (vs : List Byte) :
    (s.writeBytes .linear a vs).readByte .plane b = s.readByte .plane b :=
  State.readByte_plane_congr (by simp) (by simp) b

@[simp] theorem State.readByte_writeBytes_plane_linear (s : State) (a b : Nat) (vs : List Byte) :
    (s.writeBytes .plane a vs).readByte .linear b = s.readByte .linear b :=
  State.readByte_linear_congr (by simp) (by simp) b

/-! ### Nibbles -/

theorem low_append : ∀ u v : Nibble, (u ++ v).extractLsb' 0 4 = v := by decide

theorem high_append : ∀ u v : Nibble, (u ++ v).extractLsb' 4 4 = u := by decide

theorem getNibble_setNibble (b : Byte) (h : Nat) (v : Nibble) : getNibble (setNibble b h v) h = v := by
  by_cases hh : h = 0
  · simp only [getNibble, setNibble, hh, if_true, low_append]
  · simp only [getNibble, setNibble, hh, if_false, high_append]

theorem getNibble_setNibble_other (b : Byte) {h h' : Nat} (v : Nibble) (hh : h < 2) (hh' : h' < 2) (hne : h ≠ h') :
    getNibble (setNibble b h v) h' = getNibble b h' := by
  obtain ⟨rfl, rfl⟩ | ⟨rfl, rfl⟩ : (h = 0 ∧ h' = 1) ∨ (h = 1 ∧ h' = 0) := by omega
  · simp only [getNibble, setNibble, if_true, one_ne_zero, if_false, high_append]
  · simp only [getNibble, setNibble, if_true, one_ne_zero, if_false, low_append]

theorem byte_halves : ∀ b : Byte, b = b.extractLsb' 4 4 ++ b.extractLsb' 0 4 := by decide

/-- A byte is its two nibbles. -/
theorem byte_eq_of_nibbles {b c : Byte} (h0 : getNibble b 0 = getNibble c 0) (h1 : getNibble b 1 = getNibble c 1) :
    b = c := by
  simp only [getNibble, if_true, one_ne_zero, if_false] at h0 h1
  rw [byte_halves b, byte_halves c, h0, h1]

/-- Read after a nibble write, byte by byte. -/
theorem State.readByte_writeNibble (s : State) (sp : Space) (a b h : Nat) (v : Nibble) :
    (s.writeNibble sp a h v).readByte sp b =
      if b = a then setNibble (s.readByte sp a) h v else s.readByte sp b :=
  State.readByte_writeByte s sp a b _

@[simp] theorem State.readByte_writeNibble_linear_plane (s : State) (a b h : Nat) (v : Nibble) :
    (s.writeNibble .linear a h v).readByte .plane b = s.readByte .plane b := rfl

@[simp] theorem State.readByte_writeNibble_plane_linear (s : State) (a b h : Nat) (v : Nibble) :
    (s.writeNibble .plane a h v).readByte .linear b = s.readByte .linear b := rfl

/-- Read after a nibble write, nibble by nibble. -/
theorem State.readNibble_writeNibble (s : State) (sp : Space) {a b h h' : Nat} (v : Nibble)
    (hh : h < 2) (hh' : h' < 2) :
    (s.writeNibble sp a h v).readNibble sp b h' =
      if b = a ∧ h' = h then v else s.readNibble sp b h' := by
  unfold State.readNibble
  rw [State.readByte_writeNibble]
  by_cases hb : b = a
  · subst hb
    by_cases hhe : h' = h
    · subst hhe
      simp [getNibble_setNibble]
    · simp [hhe, getNibble_setNibble_other _ v hh hh' (Ne.symm hhe)]
  · simp [hb]

/-! ### The canonical form -/

/-- The canonical form looks at the memories and their first contents alone. -/
theorem State.memoryCanonical_congr {s t : State} (h : s.MemoryCanonical) (h1 : t.plane = s.plane)
    (h2 : t.linear = s.linear) (h3 : t.plane0 = s.plane0) (h4 : t.lb0 = s.lb0) (h5 : t.lbSize = s.lbSize) :
    t.MemoryCanonical := by
  have hi := State.initial_eq h3 h4
  simpa only [State.MemoryCanonical, hi, h1, h2, h5] using h

/-- A byte write inside its memory keeps both memories canonical. -/
theorem State.memoryCanonical_writeByte {s : State} {sp : Space} {a : Nat} {v : Byte}
    (hs : s.MemoryCanonical) (ha : a < s.sizeOf sp) : (s.writeByte sp a v).MemoryCanonical := by
  cases sp
  · exact ⟨Memory.wf_write hs.1 ha, hs.2⟩
  · exact ⟨hs.1, Memory.wf_write hs.2 ha⟩

@[simp] theorem State.writeByte_sizeOf (s : State) (sp sp' : Space) (a : Nat) (v : Byte) :
    (s.writeByte sp a v).sizeOf sp' = s.sizeOf sp' := by cases sp <;> cases sp' <;> rfl

theorem State.memoryCanonical_writeBytes {s : State} {sp : Space} {a : Nat} {vs : List Byte}
    (hs : s.MemoryCanonical) (ha : vs.length = 0 ∨ a + vs.length ≤ s.sizeOf sp) :
    (s.writeBytes sp a vs).MemoryCanonical := by
  induction vs generalizing s a with
  | nil => exact hs
  | cons v vs ih =>
    have hlen : a + (vs.length + 1) ≤ s.sizeOf sp := by simpa using ha
    refine ih (State.memoryCanonical_writeByte hs (by omega)) ?_
    rw [State.writeByte_sizeOf]
    omega

theorem State.memoryCanonical_writeNibble {s : State} {sp : Space} {a h : Nat} {v : Nibble}
    (hs : s.MemoryCanonical) (ha : a < s.sizeOf sp) : (s.writeNibble sp a h v).MemoryCanonical :=
  State.memoryCanonical_writeByte hs ha

end Sys2Proof.Machine
end

