-- ==== Sys2Proof/Laws/Passes.lean ====
section
/-! SUPPORT. What a writer or reader pass does: its pixels in linear order, the byte or nibble each address holds after
it, and the canonical form. -/

namespace Sys2Proof.Machine

/-! ### The pixels of a rectangle -/

theorem range_flatMap_eq {α : Type} (w h : Nat) (g : Nat → Nat → α) :
    ((List.range h).flatMap fun j => (List.range w).map fun i => g i j) =
      (List.range (w * h)).map fun k => g (k % w) (k / w) := by
  induction h with
  | zero => simp
  | succ h ih =>
    rw [List.range_succ, List.flatMap_append, ih, Nat.mul_succ, List.range_add, List.map_append]
    simp only [List.flatMap_cons, List.flatMap_nil, List.append_nil, List.map_map]
    congr 1
    refine List.map_congr_left fun i hi => ?_
    have hi' : i < w := List.mem_range.mp hi
    have hw : 0 < w := by omega
    have hmod : (w * h + i) % w = i := by rw [Nat.mul_add_mod, Nat.mod_eq_of_lt hi']
    have hdiv : (w * h + i) / w = h := by
      rw [Nat.mul_add_div hw, Nat.div_eq_of_lt hi', Nat.add_zero]
    simp only [Function.comp_apply, hmod, hdiv]

/-- The pixels of a rectangle are its pixels number 0, 1, 2, … in linear order (R87). -/
theorem Pass.pixels_eq (p : Pass) : p.pixels = (List.range p.count).map p.pixelAt := by
  unfold Pass.pixels Pass.count
  simp only [List.range'_eq_map_range, List.flatMap_map, List.map_map]
  exact range_flatMap_eq p.w p.h fun i j => (p.x0 + i, p.y0 + j)

/-- The linear index of the `k`-th pixel is `k` (R87). -/
theorem Pass.index_pixelAt (p : Pass) (k : Nat) : p.index (p.pixelAt k).1 (p.pixelAt k).2 = k := by
  unfold Pass.index Pass.pixelAt
  simp only [Nat.add_sub_cancel_left]
  rw [Nat.mul_comm]
  exact Nat.div_add_mod k p.w

theorem Pass.address_pixelAt (p : Pass) (f : Format) (k : Nat) :
    p.address f (p.pixelAt k).1 (p.pixelAt k).2 = p.addressAt f k := rfl

theorem Pass.inPlane_iff (p : Pass) (f : Format) :
    p.inPlane f = true ↔ ∀ k < p.count, (p.addressAt f k).offset < Config.planeSize := by
  simp only [Pass.inPlane, Pass.pixels_eq, List.all_map, List.all_eq_true, List.mem_range, Function.comp_apply,
    Pass.address_pixelAt]
  exact forall₂_congr fun _ _ => decide_eq_true_iff

theorem Pass.inLinear_iff (p : Pass) (f : Format) (lbSize : Nat) :
    p.inLinear f lbSize = true ↔ linearLength f p.count = 0 ∨ p.lin + linearLength f p.count ≤ lbSize := by
  simp [Pass.inLinear]

/-- The outcome of a pass's checks (R86, R121). -/
theorem Pass.check_cases (p : Pass) (f : Format) (lbSize : Nat) :
    (p.inPlane f = false ∧ p.check f lbSize = .range) ∨
    (p.inPlane f = true ∧ p.inLinear f lbSize = false ∧ p.check f lbSize = .linear) ∨
    (p.inPlane f = true ∧ p.inLinear f lbSize = true ∧ p.check f lbSize = .ok) := by
  unfold Pass.check
  cases p.inPlane f <;> cases p.inLinear f lbSize <;> simp

theorem Pass.check_ok_iff (p : Pass) (f : Format) (lbSize : Nat) :
    p.check f lbSize = .ok ↔ p.inPlane f = true ∧ p.inLinear f lbSize = true := by
  rcases p.check_cases f lbSize with ⟨h1, h2⟩ | ⟨h1, h2, h3⟩ | ⟨h1, h2, h3⟩ <;> simp [*]

/-- An F32 word in the plane has all its four bytes there (R86). -/
theorem Pass.f32_room (p : Pass) {k : Nat} (h : (p.addressAt .f32 k).offset < Config.planeSize) :
    (p.addressAt .f32 k).offset + 4 ≤ Config.planeSize := by
  have := (addressOf_f32_aligned p.base p.bufw (p.x0 + k % p.w) (p.y0 + k / p.w)).1
  simp only [Pass.addressAt, Config.planeSize] at *
  omega

theorem Pass.addressAt_half_lt (p : Pass) (f : Format) (k : Nat) : (p.addressAt f k).half < 2 :=
  addressOf_half_lt _ _ _ _ _

/-! ### Passes as folds over the linear index -/

/-- The writer's effect on its `k`-th pixel. -/
def writeAt (f : Format) (p : Pass) (s : State) (k : Nat) : State :=
  match f with
  | .f32 => s.writeBytes .plane (p.addressAt .f32 k).offset (s.readBytes .linear (p.lin + 4 * k) 4)
  | .f8 => s.writeByte .plane (p.addressAt .f8 k).offset (s.readByte .linear (p.lin + k))
  | .f4 => s.writeNibble .plane (p.addressAt .f4 k).offset (p.addressAt .f4 k).half
      (s.readNibble .linear (p.lin + k / 2) (k % 2))

/-- The reader's effect on its `k`-th pixel. -/
def readAt (f : Format) (p : Pass) (s : State) (k : Nat) : State :=
  match f with
  | .f32 => s.writeBytes .linear (p.lin + 4 * k) (s.readBytes .plane (p.addressAt .f32 k).offset 4)
  | .f8 => s.writeByte .linear (p.lin + k) (s.readByte .plane (p.addressAt .f8 k).offset)
  | .f4 => s.writeNibble .linear (p.lin + k / 2) (k % 2)
      (s.readNibble .plane (p.addressAt .f4 k).offset (p.addressAt .f4 k).half)

theorem writePixel_pixelAt (f : Format) (p : Pass) (s : State) (k : Nat) :
    writePixel f p s (p.pixelAt k) = writeAt f p s k := by
  cases f <;> simp only [writePixel, writeAt, Pass.index_pixelAt, Pass.address_pixelAt]

theorem readPixel_pixelAt (f : Format) (p : Pass) (s : State) (k : Nat) :
    readPixel f p s (p.pixelAt k) = readAt f p s k := by
  cases f <;> simp only [readPixel, readAt, Pass.index_pixelAt, Pass.address_pixelAt]

theorem writerPass_eq (f : Format) (p : Pass) (s : State) :
    writerPass f p s = (List.range p.count).foldl (writeAt f p) s := by
  simp only [writerPass, Pass.pixels_eq, List.foldl_map, writePixel_pixelAt]

theorem readerPass_eq (f : Format) (p : Pass) (s : State) :
    readerPass f p s = (List.range p.count).foldl (readAt f p) s := by
  simp only [readerPass, Pass.pixels_eq, List.foldl_map, readPixel_pixelAt]

/-! ### Two facts about folds over an index -/

/-- What no index touches, the fold keeps. -/
theorem foldl_range_keeps {α : Type} (g : State → α) (op : State → Nat → State) (s : State) (n : Nat)
    (h : ∀ k < n, ∀ t, g (op t k) = g t) : g ((List.range n).foldl op s) = g s := by
  induction n with
  | zero => rfl
  | succ n ih =>
    rw [List.range_succ, List.foldl_append, List.foldl_cons, List.foldl_nil, h n (Nat.lt_succ_self n),
      ih fun k hk => h k (Nat.lt_succ_of_lt hk)]

/-- What one index sets and no later index touches, the fold leaves as that index set it: "the pixel with the larger
`k` determines the final value" (R89). -/
theorem foldl_range_last {α : Type} (g : State → α) (op : State → Nat → State) (good : State → Prop) (s : State)
    {n k : Nat} (hk : k < n) {v : α} (hgood : good s) (hkeepsGood : ∀ t j, good t → good (op t j))
    (hset : ∀ t, good t → g (op t k) = v) (hkeep : ∀ j, k < j → j < n → ∀ t, g (op t j) = g t) :
    g ((List.range n).foldl op s) = v := by
  induction n with
  | zero => omega
  | succ n ih =>
    rw [List.range_succ, List.foldl_append, List.foldl_cons, List.foldl_nil]
    have hall : ∀ l : List Nat, good (l.foldl op s) := by
      intro l
      induction l using List.reverseRecOn with
      | nil => exact hgood
      | append_singleton l j ihl => rw [List.foldl_append]; exact hkeepsGood _ _ ihl
    rcases Nat.lt_succ_iff_lt_or_eq.mp hk with h | h
    · rw [hkeep n h (Nat.lt_succ_self n)]
      exact ih h fun j hj hjn => hkeep j hj (Nat.lt_succ_of_lt hjn)
    · subst h
      exact hset _ (hall _)

/-- An invariant that every index keeps holds after the fold. -/
theorem foldl_range_inv (P : State → Prop) (op : State → Nat → State) (s : State) (n : Nat)
    (hs : P s) (h : ∀ k < n, ∀ t, P t → P (op t k)) : P ((List.range n).foldl op s) := by
  induction n with
  | zero => exact hs
  | succ n ih =>
    rw [List.range_succ, List.foldl_append, List.foldl_cons, List.foldl_nil]
    exact h n (Nat.lt_succ_self n) _ (ih fun k hk => h k (Nat.lt_succ_of_lt hk))

/-! ### The writers -/

/-- A writer leaves the linear buffer as it is (R98). -/
@[simp] theorem writerPass_readByte_linear (f : Format) (p : Pass) (s : State) (a : Nat) :
    (writerPass f p s).readByte .linear a = s.readByte .linear a :=
  State.readByte_linear_congr (by simp) (by simp) a

/-- A reader leaves the plane as it is (R98). -/
@[simp] theorem readerPass_readByte_plane (f : Format) (p : Pass) (s : State) (a : Nat) :
    (readerPass f p s).readByte .plane a = s.readByte .plane a :=
  State.readByte_plane_congr (by simp) (by simp) a

theorem writeAt_readByte_linear (f : Format) (p : Pass) (s : State) (k a : Nat) :
    (writeAt f p s k).readByte .linear a = s.readByte .linear a := by
  cases f <;> simp [writeAt]

theorem readAt_readByte_plane (f : Format) (p : Pass) (s : State) (k a : Nat) :
    (readAt f p s k).readByte .plane a = s.readByte .plane a := by
  cases f <;> simp [readAt]

theorem writeAt_f32_readByte (p : Pass) (s : State) (k a : Nat) :
    (writeAt .f32 p s k).readByte .plane a =
      if (p.addressAt .f32 k).offset ≤ a ∧ a < (p.addressAt .f32 k).offset + 4 then
        s.readByte .linear (p.lin + 4 * k + (a - (p.addressAt .f32 k).offset))
      else s.readByte .plane a := by
  simp only [writeAt, State.readByte_writeBytes, State.readBytes_length]
  split
  · rw [State.readBytes_getD]; omega
  · rfl

theorem readAt_f32_readByte (p : Pass) (s : State) (k a : Nat) :
    (readAt .f32 p s k).readByte .linear a =
      if p.lin + 4 * k ≤ a ∧ a < p.lin + 4 * k + 4 then
        s.readByte .plane ((p.addressAt .f32 k).offset + (a - (p.lin + 4 * k)))
      else s.readByte .linear a := by
  simp only [readAt, State.readByte_writeBytes, State.readBytes_length]
  split
  · rw [State.readBytes_getD]; omega
  · rfl

/-- WRITE32's pass: the last pixel that covers a byte determines it (R89, R90). -/
theorem writerPass_f32_hit (p : Pass) (s : State) {k i : Nat} (hk : k < p.count) (hi : i < 4)
    (hlast : ∀ j, k < j → j < p.count → (p.addressAt .f32 j).offset ≠ (p.addressAt .f32 k).offset) :
    (writerPass .f32 p s).readByte .plane ((p.addressAt .f32 k).offset + i) =
      s.readByte .linear (p.lin + 4 * k + i) := by
  rw [writerPass_eq]
  refine foldl_range_last (fun t => t.readByte .plane _) (writeAt .f32 p)
    (fun t => ∀ a, t.readByte .linear a = s.readByte .linear a) s hk (fun _ => rfl) ?_ ?_ ?_
  · intro t j ht a
    rw [writeAt_readByte_linear, ht]
  · intro t ht
    rw [writeAt_f32_readByte, if_pos (by omega), ht]
    congr 1
    omega
  · intro j hkj hj t
    have hne := hlast j hkj hj
    have h1 := (addressOf_f32_aligned p.base p.bufw (p.x0 + j % p.w) (p.y0 + j / p.w)).1
    have h2 := (addressOf_f32_aligned p.base p.bufw (p.x0 + k % p.w) (p.y0 + k / p.w)).1
    refine (writeAt_f32_readByte p t j _).trans (if_neg ?_)
    simp only [Pass.addressAt] at hne h1 h2 ⊢
    omega

/-- WRITE32's pass leaves every byte that no pixel covers (R90). -/
theorem writerPass_f32_miss (p : Pass) (s : State) {a : Nat}
    (h : ∀ k < p.count, a < (p.addressAt .f32 k).offset ∨ (p.addressAt .f32 k).offset + 4 ≤ a) :
    (writerPass .f32 p s).readByte .plane a = s.readByte .plane a := by
  rw [writerPass_eq]
  refine foldl_range_keeps (fun t => t.readByte .plane a) _ s _ fun k hk t => ?_
  refine (writeAt_f32_readByte p t k a).trans (if_neg ?_)
  have := h k hk
  omega

/-- WRITE8's pass: the last pixel at a byte determines it (R89, R92). -/
theorem writerPass_f8_hit (p : Pass) (s : State) {k : Nat} (hk : k < p.count)
    (hlast : ∀ j, k < j → j < p.count → (p.addressAt .f8 j).offset ≠ (p.addressAt .f8 k).offset) :
    (writerPass .f8 p s).readByte .plane (p.addressAt .f8 k).offset = s.readByte .linear (p.lin + k) := by
  rw [writerPass_eq]
  refine foldl_range_last (fun t => t.readByte .plane _) (writeAt .f8 p)
    (fun t => ∀ a, t.readByte .linear a = s.readByte .linear a) s hk (fun _ => rfl) ?_ ?_ ?_
  · intro t j ht a
    rw [writeAt_readByte_linear, ht]
  · intro t ht
    simp only [writeAt]
    rw [State.readByte_writeByte, if_pos rfl, ht]
  · intro j hkj hj t
    simp only [writeAt]
    rw [State.readByte_writeByte, if_neg (Ne.symm (hlast j hkj hj))]

/-- WRITE8's pass leaves every byte that no pixel is at (R92). -/
theorem writerPass_f8_miss (p : Pass) (s : State) {a : Nat}
    (h : ∀ k < p.count, (p.addressAt .f8 k).offset ≠ a) :
    (writerPass .f8 p s).readByte .plane a = s.readByte .plane a := by
  rw [writerPass_eq]
  refine foldl_range_keeps (fun t => t.readByte .plane a) _ s _ fun k hk t => ?_
  simp only [writeAt]
  rw [State.readByte_writeByte, if_neg (Ne.symm (h k hk))]

/-- WRITE4's pass: the last pixel at a nibble determines it (R89, R95). -/
theorem writerPass_f4_hit (p : Pass) (s : State) {k : Nat} (hk : k < p.count)
    (hlast : ∀ j, k < j → j < p.count → p.addressAt .f4 j ≠ p.addressAt .f4 k) :
    (writerPass .f4 p s).readNibble .plane (p.addressAt .f4 k).offset (p.addressAt .f4 k).half =
      s.readNibble .linear (p.lin + k / 2) (k % 2) := by
  rw [writerPass_eq]
  refine foldl_range_last (fun t => t.readNibble .plane _ _) (writeAt .f4 p)
    (fun t => ∀ a, t.readByte .linear a = s.readByte .linear a) s hk (fun _ => rfl) ?_ ?_ ?_
  · intro t j ht a
    rw [writeAt_readByte_linear, ht]
  · intro t ht
    simp only [writeAt]
    rw [State.readNibble_writeNibble _ _ _ (p.addressAt_half_lt .f4 k) (p.addressAt_half_lt .f4 k),
      if_pos ⟨rfl, rfl⟩, State.readNibble, State.readNibble, ht]
  · intro j hkj hj t
    simp only [writeAt]
    rw [State.readNibble_writeNibble _ _ _ (p.addressAt_half_lt .f4 j) (p.addressAt_half_lt .f4 k), if_neg]
    rintro ⟨ho, hh⟩
    refine hlast j hkj hj ?_
    generalize p.addressAt .f4 j = u at ho hh ⊢
    generalize p.addressAt .f4 k = v at ho hh ⊢
    cases u; cases v
    simp only at ho hh
    rw [ho, hh]

/-- WRITE4's pass leaves every nibble that no pixel is at (R95). -/
theorem writerPass_f4_miss (p : Pass) (s : State) {a h : Nat} (hh : h < 2)
    (hmiss : ∀ k < p.count, p.addressAt .f4 k ≠ { offset := a, half := h }) :
    (writerPass .f4 p s).readNibble .plane a h = s.readNibble .plane a h := by
  rw [writerPass_eq]
  refine foldl_range_keeps (fun t => t.readNibble .plane a h) _ s _ fun k hk t => ?_
  simp only [writeAt]
  rw [State.readNibble_writeNibble _ _ _ (p.addressAt_half_lt .f4 k) hh, if_neg]
  rintro ⟨ho, hhalf⟩
  refine hmiss k hk ?_
  generalize p.addressAt .f4 k = u at ho hhalf ⊢
  cases u
  simp only at ho hhalf
  rw [ho, hhalf]

/-- WRITE4's pass leaves every byte none of whose nibbles a pixel is at (R95). -/
theorem writerPass_f4_missByte (p : Pass) (s : State) {a : Nat}
    (h : ∀ k < p.count, (p.addressAt .f4 k).offset ≠ a) :
    (writerPass .f4 p s).readByte .plane a = s.readByte .plane a := by
  rw [writerPass_eq]
  refine foldl_range_keeps (fun t => t.readByte .plane a) _ s _ fun k hk t => ?_
  simp only [writeAt]
  rw [State.readByte_writeNibble, if_neg (Ne.symm (h k hk))]

/-! ### The readers -/

/-- READ32's pass writes each of its linear bytes once (R89, R91). -/
theorem readerPass_f32_hit (p : Pass) (s : State) {k i : Nat} (hk : k < p.count) (hi : i < 4) :
    (readerPass .f32 p s).readByte .linear (p.lin + 4 * k + i) =
      s.readByte .plane ((p.addressAt .f32 k).offset + i) := by
  rw [readerPass_eq]
  refine foldl_range_last (fun t => t.readByte .linear _) (readAt .f32 p)
    (fun t => ∀ a, t.readByte .plane a = s.readByte .plane a) s hk (fun _ => rfl) ?_ ?_ ?_
  · intro t j ht a
    rw [readAt_readByte_plane, ht]
  · intro t ht
    rw [readAt_f32_readByte, if_pos (by omega), ht]
    congr 1
    omega
  · intro j hkj hj t
    refine (readAt_f32_readByte p t j _).trans (if_neg ?_)
    omega

/-- READ32's pass leaves every linear byte outside its array (R91). -/
theorem readerPass_f32_miss (p : Pass) (s : State) {a : Nat} (h : a < p.lin ∨ p.lin + 4 * p.count ≤ a) :
    (readerPass .f32 p s).readByte .linear a = s.readByte .linear a := by
  rw [readerPass_eq]
  refine foldl_range_keeps (fun t => t.readByte .linear a) _ s _ fun k hk t => ?_
  refine (readAt_f32_readByte p t k a).trans (if_neg ?_)
  omega

/-- READ8's pass writes each of its linear bytes once (R89, R93). -/
theorem readerPass_f8_hit (p : Pass) (s : State) {k : Nat} (hk : k < p.count) :
    (readerPass .f8 p s).readByte .linear (p.lin + k) = s.readByte .plane (p.addressAt .f8 k).offset := by
  rw [readerPass_eq]
  refine foldl_range_last (fun t => t.readByte .linear _) (readAt .f8 p)
    (fun t => ∀ a, t.readByte .plane a = s.readByte .plane a) s hk (fun _ => rfl) ?_ ?_ ?_
  · intro t j ht a
    rw [readAt_readByte_plane, ht]
  · intro t ht
    simp only [readAt]
    rw [State.readByte_writeByte, if_pos rfl, ht]
  · intro j hkj hj t
    simp only [readAt]
    rw [State.readByte_writeByte, if_neg (by omega)]

/-- READ8's pass leaves every linear byte outside its array (R93). -/
theorem readerPass_f8_miss (p : Pass) (s : State) {a : Nat} (h : a < p.lin ∨ p.lin + p.count ≤ a) :
    (readerPass .f8 p s).readByte .linear a = s.readByte .linear a := by
  rw [readerPass_eq]
  refine foldl_range_keeps (fun t => t.readByte .linear a) _ s _ fun k hk t => ?_
  simp only [readAt]
  rw [State.readByte_writeByte, if_neg (by omega)]

/-- READ4's pass writes each of its linear nibbles once (R89, R96). -/
theorem readerPass_f4_hit (p : Pass) (s : State) {k : Nat} (hk : k < p.count) :
    (readerPass .f4 p s).readNibble .linear (p.lin + k / 2) (k % 2) =
      s.readNibble .plane (p.addressAt .f4 k).offset (p.addressAt .f4 k).half := by
  rw [readerPass_eq]
  refine foldl_range_last (fun t => t.readNibble .linear _ _) (readAt .f4 p)
    (fun t => ∀ a, t.readByte .plane a = s.readByte .plane a) s hk (fun _ => rfl) ?_ ?_ ?_
  · intro t j ht a
    rw [readAt_readByte_plane, ht]
  · intro t ht
    simp only [readAt]
    rw [State.readNibble_writeNibble _ _ _ (Nat.mod_lt _ (by norm_num)) (Nat.mod_lt _ (by norm_num)),
      if_pos ⟨rfl, rfl⟩, State.readNibble, State.readNibble, ht]
  · intro j hkj hj t
    simp only [readAt]
    rw [State.readNibble_writeNibble _ _ _ (Nat.mod_lt _ (by norm_num)) (Nat.mod_lt _ (by norm_num)), if_neg]
    omega

/-- READ4's pass leaves every linear nibble it does not read a pixel into (R96). -/
theorem readerPass_f4_miss (p : Pass) (s : State) {a h : Nat} (hh : h < 2)
    (hmiss : ∀ k < p.count, ¬(a = p.lin + k / 2 ∧ h = k % 2)) :
    (readerPass .f4 p s).readNibble .linear a h = s.readNibble .linear a h := by
  rw [readerPass_eq]
  refine foldl_range_keeps (fun t => t.readNibble .linear a h) _ s _ fun k hk t => ?_
  simp only [readAt]
  rw [State.readNibble_writeNibble _ _ _ (Nat.mod_lt _ (by norm_num)) hh, if_neg (hmiss k hk)]

/-- READ4's pass leaves every linear byte outside its array (R96). -/
theorem readerPass_f4_missByte (p : Pass) (s : State) {a : Nat}
    (h : a < p.lin ∨ p.lin + (p.count + 1) / 2 ≤ a) :
    (readerPass .f4 p s).readByte .linear a = s.readByte .linear a := by
  rw [readerPass_eq]
  refine foldl_range_keeps (fun t => t.readByte .linear a) _ s _ fun k hk t => ?_
  simp only [readAt]
  rw [State.readByte_writeNibble, if_neg (by omega)]

/-! ### The canonical form -/

/-- A writer pass inside the plane keeps both memories canonical. -/
theorem writerPass_memoryCanonical {f : Format} {p : Pass} {s : State} (hs : s.MemoryCanonical)
    (hp : p.inPlane f = true) : (writerPass f p s).MemoryCanonical := by
  rw [writerPass_eq]
  refine foldl_range_inv State.MemoryCanonical _ s _ hs fun k hk t ht => ?_
  have hin := (p.inPlane_iff f).mp hp k hk
  cases f
  · refine State.memoryCanonical_writeBytes ht (.inr ?_)
    rw [State.readBytes_length]
    exact p.f32_room hin
  · exact State.memoryCanonical_writeByte ht hin
  · exact State.memoryCanonical_writeNibble ht hin

/-- A reader pass inside the linear buffer keeps both memories canonical. -/
theorem readerPass_memoryCanonical {f : Format} {p : Pass} {s : State} (hs : s.MemoryCanonical)
    (hp : p.inLinear f s.lbSize = true) : (readerPass f p s).MemoryCanonical := by
  rw [readerPass_eq]
  have hroom := (p.inLinear_iff f s.lbSize).mp hp
  suffices h : ((List.range p.count).foldl (readAt f p) s).MemoryCanonical ∧
      ((List.range p.count).foldl (readAt f p) s).lbSize = s.lbSize from h.1
  refine foldl_range_inv (fun t => t.MemoryCanonical ∧ t.lbSize = s.lbSize) _ s _ ⟨hs, rfl⟩ fun k hk t ht => ?_
  obtain ⟨ht, hsize⟩ := ht
  cases f
  · simp only [linearLength] at hroom
    refine ⟨State.memoryCanonical_writeBytes ht (.inr ?_), by simp [readAt, hsize]⟩
    rw [State.readBytes_length, State.sizeOf, hsize]
    omega
  · simp only [linearLength] at hroom
    refine ⟨State.memoryCanonical_writeByte ht ?_, by simp [readAt, hsize]⟩
    rw [State.sizeOf, hsize]
    omega
  · simp only [linearLength] at hroom
    refine ⟨State.memoryCanonical_writeNibble ht ?_, by simp [readAt, hsize]⟩
    rw [State.sizeOf, hsize]
    omega

end Sys2Proof.Machine
end

