-- ==== Sys2Proof/Laws/Commands.lean ====
section
/-! SUPPORT. What a command can do, said once: the outcomes of each shared command, and that every command answers a
next state. -/

namespace Sys2Proof.Machine

/-- A completion with an error is a failed command (R113, R120). -/
theorem State.complete_eq_failedWith (s : State) {e : ErrorCode} (h : e ≠ .ok) : s.complete e = s.failedWith e := by
  have hb : (e != .ok) = true := by simpa using h
  simp [State.complete, State.failedWith, hb]

/-- The outcomes of an ADDR command (R81 to R83). -/
theorem addressCommand_cases (f : Format) (s : State) :
    ((s.pixelAddress f).offset < Config.planeSize ∧
      addressCommand f s = .next ((s.setResult (s.pixelAddress f)).complete .ok)) ∨
    (Config.planeSize ≤ (s.pixelAddress f).offset ∧ addressCommand f s = .next (s.complete .range)) := by
  unfold addressCommand
  by_cases h : Config.planeSize ≤ (s.pixelAddress f).offset
  · exact .inr ⟨h, if_pos h⟩
  · exact .inl ⟨not_le.mp h, if_neg h⟩

/-- The outcomes of a WRITE command (R86, R90, R92, R95). -/
theorem writeCommand_cases (f : Format) (s : State) :
    (s.writePass.inPlane f = false ∧ writeCommand f s = .next (s.complete .range)) ∨
    (s.writePass.inPlane f = true ∧ s.writePass.inLinear f s.lbSize = false ∧
      writeCommand f s = .next (s.complete .linear)) ∨
    (s.writePass.inPlane f = true ∧ s.writePass.inLinear f s.lbSize = true ∧
      writeCommand f s = .next ((writerPass f s.writePass s).complete .ok)) := by
  unfold writeCommand
  rcases s.writePass.check_cases f s.lbSize with ⟨h1, h⟩ | ⟨h1, h2, h⟩ | ⟨h1, h2, h⟩
  · exact .inl ⟨h1, by rw [h]⟩
  · exact .inr (.inl ⟨h1, h2, by rw [h]⟩)
  · exact .inr (.inr ⟨h1, h2, by rw [h]⟩)

/-- The outcomes of a READ command (R86, R91, R93, R96). -/
theorem readCommand_cases (f : Format) (s : State) :
    (s.readPass.inPlane f = false ∧ readCommand f s = .next (s.complete .range)) ∨
    (s.readPass.inPlane f = true ∧ s.readPass.inLinear f s.lbSize = false ∧
      readCommand f s = .next (s.complete .linear)) ∨
    (s.readPass.inPlane f = true ∧ s.readPass.inLinear f s.lbSize = true ∧
      readCommand f s = .next ((readerPass f s.readPass s).complete .ok)) := by
  unfold readCommand
  rcases s.readPass.check_cases f s.lbSize with ⟨h1, h⟩ | ⟨h1, h2, h⟩ | ⟨h1, h2, h⟩
  · exact .inl ⟨h1, by rw [h]⟩
  · exact .inr (.inl ⟨h1, h2, by rw [h]⟩)
  · exact .inr (.inr ⟨h1, h2, by rw [h]⟩)

theorem State.geometryLegal_iff (s : State) : s.geometryLegal = true ↔ s.SizesLegal := by
  unfold State.geometryLegal State.SizesLegal
  simp only [Bool.and_eq_true, Bool.or_eq_true, decide_eq_true_eq, bne_iff_ne, ne_eq, and_assoc]

/-- The outcome of the orchestrator's checks (R101, R121). -/
theorem State.orchestratorCheck_cases (s : State) :
    (¬ s.SizesLegal ∧ s.orchestratorCheck = .geometry) ∨
    (s.SizesLegal ∧ Config.planeSize < s.streamLength ∧ s.orchestratorCheck = .range) ∨
    (s.SizesLegal ∧ s.streamLength ≤ Config.planeSize ∧
      (s.lbSize < s.lsrc.toNat + s.streamLength ∨ s.lbSize < s.ldst.toNat + s.streamLength) ∧
      s.orchestratorCheck = .linear) ∨
    (s.OrchestratorFits ∧ s.orchestratorCheck = .ok) := by
  have hg := s.geometryLegal_iff
  unfold State.orchestratorCheck
  by_cases h1 : s.geometryLegal = true
  · rw [if_neg (by simp [h1])]
    by_cases h2 : Config.planeSize < s.streamLength
    · exact .inr (.inl ⟨hg.mp h1, h2, if_pos h2⟩)
    · rw [if_neg h2]
      by_cases h3 : s.lbSize < s.lsrc.toNat + s.streamLength ∨ s.lbSize < s.ldst.toNat + s.streamLength
      · exact .inr (.inr (.inl ⟨hg.mp h1, not_lt.mp h2, h3, if_pos h3⟩))
      · exact .inr (.inr (.inr ⟨⟨hg.mp h1, not_lt.mp h2, by omega, by omega⟩, if_neg h3⟩))
  · exact .inl ⟨fun h => h1 (hg.mpr h), by rw [if_pos (by simpa using h1)]⟩

theorem State.orchestratorCheck_ok_iff (s : State) : s.orchestratorCheck = .ok ↔ s.OrchestratorFits := by
  rcases s.orchestratorCheck_cases with ⟨h, hc⟩ | ⟨-, h, hc⟩ | ⟨-, -, h, hc⟩ | ⟨h, hc⟩
  · exact ⟨fun hk => by simp [hc] at hk, fun hf => absurd hf.sizes h⟩
  · exact ⟨fun hk => by simp [hc] at hk, fun hf => absurd hf.inPlane (not_le.mpr h)⟩
  · refine ⟨fun hk => by simp [hc] at hk, fun hf => ?_⟩
    have := hf.source
    have := hf.destination
    omega
  · exact ⟨fun _ => h, fun _ => hc⟩

/-- The outcomes of UNSWIZZLE (R101, R103). -/
theorem execUnswizzle_cases (s : State) :
    (s.OrchestratorFits ∧ execUnswizzle s = .next ((unswizzlePasses s).complete .ok)) ∨
    (s.orchestratorCheck ≠ .ok ∧ execUnswizzle s = .next (s.complete s.orchestratorCheck)) := by
  rw [← State.orchestratorCheck_ok_iff]
  unfold execUnswizzle
  cases h : s.orchestratorCheck <;> simp

/-- The outcomes of SWIZZLE (R101, R104). -/
theorem execSwizzle_cases (s : State) :
    (s.OrchestratorFits ∧ execSwizzle s = .next ((swizzlePasses s).complete .ok)) ∨
    (s.orchestratorCheck ≠ .ok ∧ execSwizzle s = .next (s.complete s.orchestratorCheck)) := by
  rw [← State.orchestratorCheck_ok_iff]
  unfold execSwizzle
  cases h : s.orchestratorCheck <;> simp

/-! ### The orchestrator's passes stay in range -/

/-- The page of a pixel of a rectangle of `P` by `Q` whole pages is one of the first `P * Q`. -/
theorem pageOf_lt {f : Format} {P Q x y : Nat} (hx : x < P * (geometry f).pageW) (hy : y < Q * (geometry f).pageH) :
    pageOf f P x y < P * Q := by
  have h1 : x / (geometry f).pageW < P := by
    cases f <;> simp only [geometry] at * <;> omega
  have h2 : y / (geometry f).pageH + 1 ≤ Q := by
    cases f <;> simp only [geometry] at * <;> omega
  calc pageOf f P x y < P + y / (geometry f).pageH * P := by unfold pageOf; omega
    _ = (y / (geometry f).pageH + 1) * P := by ring
    _ ≤ Q * P := Nat.mul_le_mul_right P h2
    _ = P * Q := Nat.mul_comm Q P

/-- A rectangle of `P` by `Q` whole pages, in a buffer `P` pages wide, stays below its `P * Q` pages (R100). -/
theorem wholePages_offset_lt {f : Format} {p : Pass} {P Q : Nat} (hbufw : p.bufw = P) (hx0 : p.x0 = 0)
    (hy0 : p.y0 = 0) (hw : p.w = P * (geometry f).pageW) (hh : p.h = Q * (geometry f).pageH)
    {k : Nat} (hk : k < p.count) : (p.addressAt f k).offset < p.base * 256 + P * Q * 8192 := by
  unfold Pass.count at hk
  have hw0 : 0 < p.w := Nat.pos_of_ne_zero fun h => by simp [h] at hk
  have hx : k % p.w < P * (geometry f).pageW := hw ▸ Nat.mod_lt k hw0
  have hy : k / p.w < Q * (geometry f).pageH := hh ▸ Nat.div_lt_of_lt_mul hk
  have hpage := pageOf_lt hx hy
  have hb := (addressOf_bounds f p.base P (k % p.w) (k / p.w)).2
  have hle : pageOf f P (k % p.w) (k / p.w) * 8192 + 8192 ≤ P * Q * 8192 := by
    rw [← Nat.succ_mul]
    exact Nat.mul_le_mul_right 8192 hpage
  rw [Pass.addressAt, hbufw, hx0, hy0, Nat.zero_add, Nat.zero_add]
  exact hb.trans_le (by rw [Nat.add_assoc]; exact Nat.add_le_add_left hle _)

/-- Legal sizes, in pages: `P` across, `Q` down in both passes (R102). -/
theorem State.sizesLegal_pages {s : State} (h : s.SizesLegal) :
    ∃ P Q, s.rw.toNat / 128 = P ∧ s.streamLength = P * Q * 8192 ∧
      (∀ lin, (s.scaledPass lin).w = P * (geometry .f32).pageW ∧ (s.scaledPass lin).h = Q * (geometry .f32).pageH) ∧
      (∀ lin, (s.fullPass lin).w = P * (geometry s.depthFormat).pageW ∧
        (s.fullPass lin).h = Q * (geometry s.depthFormat).pageH) := by
  obtain ⟨P, hP⟩ := Nat.dvd_of_mod_eq_zero h.2.2.2.1
  obtain ⟨H, hH⟩ := Nat.dvd_of_mod_eq_zero h.2.2.2.2
  rcases h.1 with hb | hb
  · have hn : ¬ s.bpp.toNat = 8 := by omega
    refine ⟨P, H, by omega, ?_, fun lin => ⟨?_, ?_⟩, fun lin => ⟨?_, ?_⟩⟩
    · rw [State.streamLength, if_neg hn, hP, hH]
      have : 128 * P * (128 * H) = P * H * 8192 * 2 := by ring
      omega
    · simp only [State.scaledPass, geometry]; omega
    · simp only [State.scaledPass, geometry, if_neg hn]; omega
    · simp only [State.fullPass, State.depthFormat, if_neg hn, geometry]; omega
    · simp only [State.fullPass, State.depthFormat, if_neg hn, geometry]; omega
  · refine ⟨P, 2 * H, by omega, ?_, fun lin => ⟨?_, ?_⟩, fun lin => ⟨?_, ?_⟩⟩
    · rw [State.streamLength, if_pos hb, hP, hH]; ring
    · simp only [State.scaledPass, geometry]; omega
    · simp only [State.scaledPass, geometry, if_pos hb]; omega
    · simp only [State.fullPass, State.depthFormat, if_pos hb, geometry]; omega
    · simp only [State.fullPass, State.depthFormat, if_pos hb, geometry]; omega

theorem State.OrchestratorFits.pages {s : State} (h : s.OrchestratorFits) :
    ∃ P Q, s.rw.toNat / 128 = P ∧ s.streamLength = P * Q * 8192 ∧
      (∀ lin, (s.scaledPass lin).w = P * (geometry .f32).pageW ∧ (s.scaledPass lin).h = Q * (geometry .f32).pageH) ∧
      (∀ lin, (s.fullPass lin).w = P * (geometry s.depthFormat).pageW ∧
        (s.fullPass lin).h = Q * (geometry s.depthFormat).pageH) :=
  State.sizesLegal_pages h.sizes

/-- The scaled pass addresses plane bytes `[0, n)` only (R102). -/
theorem State.OrchestratorFits.scaled_lt {s : State} (h : s.OrchestratorFits) (lin k : Nat)
    (hk : k < (s.scaledPass lin).count) : ((s.scaledPass lin).addressAt .f32 k).offset < s.streamLength := by
  obtain ⟨P, Q, hP, hn, hs, -⟩ := h.pages
  have := wholePages_offset_lt (f := .f32) (p := s.scaledPass lin) hP rfl rfl (hs lin).1 (hs lin).2 hk
  rw [hn]
  simpa [State.scaledPass] using this

/-- The full pass addresses plane bytes `[0, n)` only (R102). -/
theorem State.OrchestratorFits.full_lt {s : State} (h : s.OrchestratorFits) (lin k : Nat)
    (hk : k < (s.fullPass lin).count) : ((s.fullPass lin).addressAt s.depthFormat k).offset < s.streamLength := by
  obtain ⟨P, Q, hP, hn, -, hf⟩ := h.pages
  have := wholePages_offset_lt (f := s.depthFormat) (p := s.fullPass lin) hP rfl rfl (hf lin).1 (hf lin).2 hk
  rw [hn]
  simpa [State.fullPass] using this

/-- Both passes move `n` linear bytes (R101, R102). -/
theorem State.OrchestratorFits.lengths {s : State} (h : s.OrchestratorFits) (lin : Nat) :
    linearLength .f32 (s.scaledPass lin).count = s.streamLength ∧
    linearLength s.depthFormat (s.fullPass lin).count = s.streamLength := by
  obtain ⟨P, hP⟩ := Nat.dvd_of_mod_eq_zero h.sizes.2.2.2.1
  obtain ⟨H, hH⟩ := Nat.dvd_of_mod_eq_zero h.sizes.2.2.2.2
  rcases h.sizes.1 with hb | hb
  · have hn : ¬ s.bpp.toNat = 8 := by omega
    have hw : 128 * P / 2 = 64 * P := by omega
    have hh : 128 * H / 4 = 32 * H := by omega
    simp only [linearLength, Pass.count, State.scaledPass, State.fullPass, State.streamLength, State.depthFormat,
      if_neg hn, hP, hH, hw, hh]
    have e1 : 128 * P * (128 * H) = 16384 * (P * H) := by ring
    have e2 : 64 * P * (32 * H) = 2048 * (P * H) := by ring
    omega
  · have hw : 128 * P / 2 = 64 * P := by omega
    have hh : 128 * H / 2 = 64 * H := by omega
    simp only [linearLength, Pass.count, State.scaledPass, State.fullPass, State.streamLength, State.depthFormat,
      if_pos hb, hP, hH, hw, hh]
    have e1 : 128 * P * (128 * H) = 16384 * (P * H) := by ring
    have e2 : 64 * P * (64 * H) = 4096 * (P * H) := by ring
    exact ⟨by omega, trivial⟩

theorem State.OrchestratorFits.scaled_inPlane {s : State} (h : s.OrchestratorFits) (lin : Nat) :
    (s.scaledPass lin).inPlane .f32 = true :=
  (Pass.inPlane_iff _ _).mpr fun k hk => (h.scaled_lt lin k hk).trans_le h.inPlane

theorem State.OrchestratorFits.full_inPlane {s : State} (h : s.OrchestratorFits) (lin : Nat) :
    (s.fullPass lin).inPlane s.depthFormat = true :=
  (Pass.inPlane_iff _ _).mpr fun k hk => (h.full_lt lin k hk).trans_le h.inPlane

/-! ### Every command -/

/-- The effect of a successful command, before its completion. -/
def commandEffect (i : Instr) (s : State) : State :=
  match i with
  | .addr32 => s.setResult (s.pixelAddress .f32)
  | .addr8 => s.setResult (s.pixelAddress .f8)
  | .addr4 => s.setResult (s.pixelAddress .f4)
  | .write32 => writerPass .f32 s.writePass s
  | .read32 => readerPass .f32 s.readPass s
  | .write8 => writerPass .f8 s.writePass s
  | .read8 => readerPass .f8 s.readPass s
  | .write4 => writerPass .f4 s.writePass s
  | .read4 => readerPass .f4 s.readPass s
  | .unswizzle => unswizzlePasses s
  | .swizzle => swizzlePasses s

/-- Everything a command can do: it completes with its effect, or it completes with an error other than E_OPCODE and no
effect (R111, R120). -/
theorem exec_cases (i : Instr) (s : State) :
    exec i s = .next ((commandEffect i s).complete .ok) ∨
    ∃ e, e ≠ .ok ∧ e ≠ .opcode ∧ exec i s = .next (s.complete e) := by
  have ho : s.orchestratorCheck ≠ .opcode := by
    unfold State.orchestratorCheck
    split_ifs <;> simp
  have ha : ∀ f, addressCommand f s = .next ((s.setResult (s.pixelAddress f)).complete .ok) ∨
      ∃ e, e ≠ .ok ∧ e ≠ .opcode ∧ addressCommand f s = .next (s.complete e) := fun f => by
    rcases addressCommand_cases f s with ⟨-, h⟩ | ⟨-, h⟩
    · exact .inl h
    · exact .inr ⟨.range, by simp, by simp, h⟩
  have hw : ∀ f, writeCommand f s = .next ((writerPass f s.writePass s).complete .ok) ∨
      ∃ e, e ≠ .ok ∧ e ≠ .opcode ∧ writeCommand f s = .next (s.complete e) := fun f => by
    rcases writeCommand_cases f s with ⟨-, h⟩ | ⟨-, -, h⟩ | ⟨-, -, h⟩
    · exact .inr ⟨.range, by simp, by simp, h⟩
    · exact .inr ⟨.linear, by simp, by simp, h⟩
    · exact .inl h
  have hr : ∀ f, readCommand f s = .next ((readerPass f s.readPass s).complete .ok) ∨
      ∃ e, e ≠ .ok ∧ e ≠ .opcode ∧ readCommand f s = .next (s.complete e) := fun f => by
    rcases readCommand_cases f s with ⟨-, h⟩ | ⟨-, -, h⟩ | ⟨-, -, h⟩
    · exact .inr ⟨.range, by simp, by simp, h⟩
    · exact .inr ⟨.linear, by simp, by simp, h⟩
    · exact .inl h
  cases i
  case addr32 => exact ha .f32
  case addr8 => exact ha .f8
  case addr4 => exact ha .f4
  case write32 => exact hw .f32
  case read32 => exact hr .f32
  case write8 => exact hw .f8
  case read8 => exact hr .f8
  case write4 => exact hw .f4
  case read4 => exact hr .f4
  case unswizzle =>
    rcases execUnswizzle_cases s with ⟨-, h⟩ | ⟨h1, h⟩
    · exact .inl h
    · exact .inr ⟨_, h1, ho, h⟩
  case swizzle =>
    rcases execSwizzle_cases s with ⟨-, h⟩ | ⟨h1, h⟩
    · exact .inl h
    · exact .inr ⟨_, h1, ho, h⟩

end Sys2Proof.Machine
end

