-- ==== Sys2Proof/Laws/HostPort.lean ====
section
/-! SUPPORT. What one event of the total order can do: the register map, the delivery of a command word, the turn taken,
and the step as one of a few cases. -/

namespace Sys2Proof.Machine

/-! ### The register map -/

@[simp] theorem regAtOffset_regOffset (r : RegName) : regAtOffset (regOffset r) = some r := by
  cases r <;> rfl

@[simp] theorem accessAdmitted_regOffset (r : RegName) : accessAdmitted 32 (regOffset r) = true := by
  cases r <;> rfl

theorem regAtOffset_eq_none {offset : Nat} (h : 0x30 ≤ offset) : regAtOffset offset = none := by
  unfold regAtOffset
  split <;> first | rfl | omega

theorem accessAdmitted_iff (bits offset : Nat) :
    accessAdmitted bits offset = true ↔ bits = 32 ∧ offset % 4 = 0 := by
  simp [accessAdmitted]

theorem State.linearHolds_iff (s : State) (offset n : Nat) :
    s.linearHolds offset n = true ↔ n = 0 ∨ offset + n ≤ s.lbSize := by
  simp [State.linearHolds]

/-- A stored write changes the registers alone. -/
theorem State.storeReg_frame (s : State) (r : RegName) (v : Word) :
    s.storeReg r v = { s with
      base := (s.storeReg r v).base, bufw := (s.storeReg r v).bufw, rx := (s.storeReg r v).rx
      ry := (s.storeReg r v).ry, rw := (s.storeReg r v).rw, rh := (s.storeReg r v).rh
      bpp := (s.storeReg r v).bpp, lsrc := (s.storeReg r v).lsrc, ldst := (s.storeReg r v).ldst } := by
  cases r <;> rfl

/-- A register read back after a stored write. -/
theorem State.readReg_storeReg_other (s : State) {r r' : RegName} (v : Word) (h : r' ≠ r) :
    (s.storeReg r v).readReg r' = s.readReg r' := by
  cases r <;> cases r' <;> first | rfl | exact absurd rfl h

/-! ### The delivery of a command word -/

/-- Everything the delivery of a command word can do (R50, R113). -/
theorem hostCommand_cases (w : Word) (s : State) :
    (∃ i, decode w = .ok i ∧ hostCommand w s = exec i s) ∨
    ((∃ r, decode w = .error r) ∧ hostCommand w s = .next (s.complete .opcode)) := by
  unfold hostCommand
  cases h : decode w with
  | ok i => exact .inl ⟨i, rfl, rfl⟩
  | error r => exact .inr ⟨⟨r, rfl⟩, rfl⟩

/-- A delivered command word completes with an effect or with an error (R111). -/
theorem hostCommand_next (w : Word) (s : State) :
    (∃ i, decode w = .ok i ∧ hostCommand w s = .next ((commandEffect i s).complete .ok)) ∨
    ∃ e, e ≠ .ok ∧ hostCommand w s = .next (s.complete e) := by
  rcases hostCommand_cases w s with ⟨i, hi, h⟩ | ⟨-, h⟩
  · rcases exec_cases i s with he | ⟨e, he, -, he'⟩
    · exact .inl ⟨i, hi, h.trans he⟩
    · exact .inr ⟨e, he, h.trans he'⟩
  · exact .inr ⟨.opcode, by simp, h⟩

/-! ### Turns -/

/-- Taking the next event off changes the turns and the agents alone, and takes one turn. -/
theorem State.nextEvent_frame (s : State) :
    s.nextEvent.2 = { s with turns := s.turns.tail, agents := s.nextEvent.2.agents } := by
  unfold State.nextEvent
  split
  · next h =>
    have ht : s.turns.tail = s.turns := by rw [h]; rfl
    rw [ht]
  · next h =>
    split
    · simp [h]
    · split <;> simp [h]

/-- What an agent has pending after a turn was pending before it. -/
theorem State.nextEvent_pending (s : State) {g : Agent} {e : HostEvent} (hg : g ∈ s.nextEvent.2.agents)
    (he : e ∈ g.pending) : ∃ g' ∈ s.agents, e ∈ g'.pending := by
  unfold State.nextEvent at hg
  split at hg
  · exact ⟨g, hg, he⟩
  · split at hg
    · exact ⟨g, hg, he⟩
    · next g₀ hg₀ =>
      split at hg
      · exact ⟨g, hg, he⟩
      · next e₀ es hp =>
        rcases List.mem_or_eq_of_mem_set hg with h | h
        · exact ⟨g, h, he⟩
        · refine ⟨g₀, List.mem_of_getElem? hg₀, ?_⟩
          rw [h] at he
          rw [hp]
          exact List.mem_cons_of_mem _ he

/-- The event made was pending. -/
theorem State.nextEvent_mem (s : State) {h : Nat} {e : HostEvent} (hn : s.nextEvent.1 = some (h, e)) :
    ∃ g ∈ s.agents, e ∈ g.pending := by
  unfold State.nextEvent at hn
  split at hn
  · simp at hn
  · split at hn
    · simp at hn
    · next g hg =>
      split at hn
      · simp at hn
      · next e₀ es hp =>
        simp only [Option.some.injEq, Prod.mk.injEq] at hn
        refine ⟨g, List.mem_of_getElem? hg, ?_⟩
        rw [hp, ← hn.2]
        exact List.mem_cons_self

/-- One step: nothing but the turn, or the event made. -/
theorem step_cases (s : State) :
    (s.nextEvent.1 = none ∧ step s = .next s.nextEvent.2) ∨
    ∃ h e, s.nextEvent.1 = some (h, e) ∧ step s = perform h e s.nextEvent.2 := by
  unfold step machineStep
  rcases hn : s.nextEvent with ⟨_ | ⟨h, e⟩, s'⟩
  · exact .inl ⟨rfl, rfl⟩
  · exact .inr ⟨h, e, rfl, rfl⟩

/-- Every way one event can go: what it answers, and when (R13 to R24, R26, R126 to R129). -/
theorem perform_cases (h : Nat) (e : HostEvent) (s : State) :
    (∃ w, e = .regWrite 32 0 w ∧ perform h e s = hostCommand w s) ∨
    (∃ offset v r, e = .regWrite 32 offset v ∧ regAtOffset offset = some r ∧ r ≠ .cmd ∧
      perform h e s = .next (s.storeReg r v)) ∨
    (∃ offset v, e = .regWrite 32 offset v ∧ regAtOffset offset = none ∧ perform h e s = .next s) ∨
    (∃ offset, e = .regRead 32 offset ∧
      perform h e s = .next (s.returnTo h (.reg offset (s.readOffset offset)))) ∨
    (∃ offset bytes, e = .lbWrite offset bytes ∧ (bytes.length = 0 ∨ offset + bytes.length ≤ s.lbSize) ∧
      perform h e s = .next (s.writeBytes .linear offset bytes)) ∨
    (∃ offset n, e = .lbRead offset n ∧
      perform h e s = .next (s.returnTo h (.lb offset (s.readBytes .linear offset n)))) ∨
    (∃ p, e = .reset p ∧ perform h e s = .next (s.takeReset p)) ∨
    (admitted s.lbSize e = false ∧
      ((∃ bits offset, perform h e s = .refused (.accessNotAdmitted bits offset)) ∨
       ∃ offset n, perform h e s = .fault (.hostLinearAbsent offset n))) := by
  cases e with
  | regWrite bits offset v =>
    by_cases ha : accessAdmitted bits offset = true
    · obtain ⟨rfl, -⟩ := (accessAdmitted_iff bits offset).mp ha
      simp only [perform, hostRegWrite, ha, if_true]
      rcases hr : regAtOffset offset with _ | r
      · exact .inr (.inr (.inl ⟨offset, v, rfl, hr, rfl⟩))
      · by_cases hc : r = .cmd
        · subst hc
          have ho : offset = 0 := by
            unfold regAtOffset at hr
            split at hr <;> first | rfl | simp at hr
          exact .inl ⟨v, by rw [ho], rfl⟩
        · refine .inr (.inl ⟨offset, v, r, rfl, hr, hc, ?_⟩)
          cases r <;> first | rfl | exact absurd rfl hc
    · refine .inr (.inr (.inr (.inr (.inr (.inr (.inr ⟨?_, .inl ⟨bits, offset, ?_⟩⟩))))))
      · simp [admitted, HostEvent.wf, ha]
      · simp [perform, hostRegWrite, ha]
  | regRead bits offset =>
    by_cases ha : accessAdmitted bits offset = true
    · obtain ⟨rfl, -⟩ := (accessAdmitted_iff bits offset).mp ha
      exact .inr (.inr (.inr (.inl ⟨offset, rfl, by simp [perform, hostRegRead, ha]⟩)))
    · refine .inr (.inr (.inr (.inr (.inr (.inr (.inr ⟨?_, .inl ⟨bits, offset, ?_⟩⟩))))))
      · simp [admitted, HostEvent.wf, ha]
      · simp [perform, hostRegRead, ha]
  | lbWrite offset bytes =>
    by_cases hl : s.linearHolds offset bytes.length = true
    · exact .inr (.inr (.inr (.inr (.inl ⟨offset, bytes, rfl, (s.linearHolds_iff _ _).mp hl,
        by simp [perform, hostLinearWrite, hl]⟩))))
    · refine .inr (.inr (.inr (.inr (.inr (.inr (.inr ⟨?_, .inr ⟨offset, bytes.length, ?_⟩⟩))))))
      · rw [State.linearHolds] at hl
        simpa [admitted, HostEvent.wf] using hl
      · simp [perform, hostLinearWrite, hl]
  | lbRead offset n =>
    by_cases hl : s.linearHolds offset n = true
    · exact .inr (.inr (.inr (.inr (.inr (.inl ⟨offset, n, rfl, by simp [perform, hostLinearRead, hl]⟩)))))
    · refine .inr (.inr (.inr (.inr (.inr (.inr (.inr ⟨?_, .inr ⟨offset, n, ?_⟩⟩))))))
      · rw [State.linearHolds] at hl
        simpa [admitted, HostEvent.wf] using hl
      · simp [perform, hostLinearRead, hl]
  | reset p => exact .inr (.inr (.inr (.inr (.inr (.inr (.inl ⟨p, rfl, rfl⟩))))))

/-- A run whose first step answers a next state goes on from it. -/
theorem run_succ (M : Host.Core) {n : Nat} {s t : M.State} (h : M.step s = .next t) :
    M.run (n + 1) s = M.run n t := by
  rw [Host.Core.run, h]

/-- A run that answers a next state made its first step. -/
theorem run_succ_cases (M : Host.Core) {n : Nat} {s u : M.State} (h : M.run (n + 1) s = .next u) :
    ∃ t, M.step s = .next t ∧ M.run n t = .next u := by
  rcases hs : M.step s with t | r | r
  · exact ⟨t, rfl, run_succ M hs ▸ h⟩
  all_goals
    rw [Host.Core.run, hs] at h
    simp at h

/-- A step that delivers a word to CMD delivers it to the state after the turn. -/
theorem step_of_commandDelivered {s : State} {w : Word} (h : s.commandDelivered = some w) :
    step s = hostCommand w s.nextEvent.2 := by
  unfold State.commandDelivered at h
  split at h
  · next j bits offset w' hn =>
    split_ifs at h with hb
    obtain ⟨rfl, rfl⟩ := hb
    obtain rfl : w' = w := by simpa using h
    rcases step_cases s with ⟨h0, -⟩ | ⟨j', e, h1, hs⟩
    · rw [hn] at h0; simp at h0
    · rw [hn] at h1
      obtain ⟨rfl, rfl⟩ : j = j' ∧ HostEvent.regWrite 32 0 w' = e := by simpa using h1
      rw [hs]
      rfl
  · simp at h

end Sys2Proof.Machine
end

