-- ==== Sys2Proof/Laws/PerInstr.lean ====
section
/-! SUPPORT. Statements about every command, one lemma per constructor: decoding a command's word gives it back. -/

namespace Sys2Proof.Laws.RoundTrip

/-- A command is well formed, its word has the table's number of bits, and the decoder reads it back (R46 to R48). -/
def Statement (i : Instr) : Prop :=
  i.wf = true ∧ decode (encode i) = .ok i ∧ decodeTableWord 32 (encode i).toNat = some i

theorem addr32 : Statement .addr32 := ⟨rfl, rfl, rfl⟩
theorem addr8 : Statement .addr8 := ⟨rfl, rfl, rfl⟩
theorem addr4 : Statement .addr4 := ⟨rfl, rfl, rfl⟩
theorem write32 : Statement .write32 := ⟨rfl, rfl, rfl⟩
theorem read32 : Statement .read32 := ⟨rfl, rfl, rfl⟩
theorem write8 : Statement .write8 := ⟨rfl, rfl, rfl⟩
theorem read8 : Statement .read8 := ⟨rfl, rfl, rfl⟩
theorem write4 : Statement .write4 := ⟨rfl, rfl, rfl⟩
theorem read4 : Statement .read4 := ⟨rfl, rfl, rfl⟩
theorem unswizzle : Statement .unswizzle := ⟨rfl, rfl, rfl⟩
theorem swizzle : Statement .swizzle := ⟨rfl, rfl, rfl⟩

end Sys2Proof.Laws.RoundTrip
end

