-- ==== Sys2Proof/Laws/SameMemory.lean ====
section
/-! SUPPORT. What a pass does to the memories depends on the memories alone, not on the registers. -/

namespace Sys2Proof.Machine

/-- Two states that hold the same memories. -/
structure SameMemory (s t : State) : Prop where
  plane : t.plane = s.plane
  linear : t.linear = s.linear
  plane0 : t.plane0 = s.plane0
  lb0 : t.lb0 = s.lb0

theorem SameMemory.readByte {s t : State} (h : SameMemory s t) (sp : Space) (a : Nat) :
    t.readByte sp a = s.readByte sp a := by
  cases sp
  · exact State.readByte_plane_congr h.plane h.plane0 a
  · exact State.readByte_linear_congr h.linear h.lb0 a

theorem SameMemory.writeByte {s t : State} (h : SameMemory s t) (sp : Space) (a : Nat) (v : Byte) :
    SameMemory (s.writeByte sp a v) (t.writeByte sp a v) := by
  have hi := State.initial_eq h.plane0 h.lb0
  cases sp <;> constructor <;> simp [State.writeByte, h.plane, h.linear, h.plane0, h.lb0, hi]

theorem SameMemory.writeBytes {s t : State} (h : SameMemory s t) (sp : Space) (a : Nat) (vs : List Byte) :
    SameMemory (s.writeBytes sp a vs) (t.writeBytes sp a vs) := by
  induction vs generalizing s t a with
  | nil => exact h
  | cons v vs ih => exact ih (h.writeByte sp a v) (a + 1)

theorem SameMemory.writePixel {s t : State} (h : SameMemory s t) (f : Format) (p : Pass) (q : Nat × Nat) :
    SameMemory (writePixel f p s q) (writePixel f p t q) := by
  cases f
  · simp only [Machine.writePixel, State.readBytes_congr (h.readByte .linear)]
    exact h.writeBytes ..
  · simp only [Machine.writePixel, h.readByte]
    exact h.writeByte ..
  · simp only [Machine.writePixel, State.writeNibble, State.readNibble, h.readByte]
    exact h.writeByte ..

theorem SameMemory.readPixel {s t : State} (h : SameMemory s t) (f : Format) (p : Pass) (q : Nat × Nat) :
    SameMemory (readPixel f p s q) (readPixel f p t q) := by
  cases f
  · simp only [Machine.readPixel, State.readBytes_congr (h.readByte .plane)]
    exact h.writeBytes ..
  · simp only [Machine.readPixel, h.readByte]
    exact h.writeByte ..
  · simp only [Machine.readPixel, State.writeNibble, State.readNibble, h.readByte]
    exact h.writeByte ..

theorem SameMemory.foldl {α : Type} {op : State → α → State}
    (hop : ∀ q {s t}, SameMemory s t → SameMemory (op s q) (op t q)) (l : List α) {s t : State}
    (h : SameMemory s t) : SameMemory (l.foldl op s) (l.foldl op t) := by
  induction l generalizing s t with
  | nil => exact h
  | cons q l ih => exact ih (hop q h)

/-- A writer pass on the same memories leaves the same memories. -/
theorem SameMemory.writerPass {s t : State} (h : SameMemory s t) (f : Format) (p : Pass) :
    SameMemory (writerPass f p s) (writerPass f p t) :=
  SameMemory.foldl (fun q _ _ h => h.writePixel f p q) _ h

/-- A reader pass on the same memories leaves the same memories. -/
theorem SameMemory.readerPass {s t : State} (h : SameMemory s t) (f : Format) (p : Pass) :
    SameMemory (readerPass f p s) (readerPass f p t) :=
  SameMemory.foldl (fun q _ _ h => h.readPixel f p q) _ h

end Sys2Proof.Machine
end

