-- ==== Sys2Proof/Tests/Slice0.lean ====
section
/-! SUPPORT. Smoke tests of the checks, the words of every command, single steps whose results are the vectors of
spec/95_test_vectors.md (the row is named in each comment), and a witness for the hypotheses of each statement. -/

namespace Sys2Proof.Tests

open Sys2Proof.Machine

/-! ### Helpers -/

/-- A part of the next state, if there is one. -/
def part {α : Type} (o : Host.Outcome State Fault Refusal) (f : State → α) : Option α :=
  match o with
  | .next t => some (f t)
  | .fault _ | .refused _ => none

/-- Reset with a plane of zeros and a linear buffer of `n` bytes that starts with `lb`. -/
def fresh (n : Nat) (lb : List Byte) : State := { State.reset with plane0 := [], lb0 := lb, lbSize := n }

/-- A state with BASE, BUFW, RX and RY set. -/
def at_ (base bufw x y : Nat) : State :=
  { fresh 0 [] with
    base := BitVec.ofNat 14 base, bufw := BitVec.ofNat 16 bufw, rx := BitVec.ofNat 16 x, ry := BitVec.ofNat 16 y }

/-- A state with BUFW 1 and a rectangle from `(0, y)`. -/
def rect (s : State) (y rw rh : Nat) : State :=
  { s with bufw := 1, ry := BitVec.ofNat 16 y, rw := BitVec.ofNat 16 rw, rh := BitVec.ofNat 16 rh }

/-- A state for the orchestrator: sizes, depth, source and destination. -/
def image (n bpp rw rh src dst : Nat) : State :=
  { fresh n [] with
    bpp := BitVec.ofNat 4 bpp, rw := BitVec.ofNat 16 rw, rh := BitVec.ofNat 16 rh
    lsrc := BitVec.ofNat 32 src, ldst := BitVec.ofNat 32 dst }

/-- Bytes of the plane from 0 up, at the listed addresses. -/
def planeAt (as : List Nat) (s : State) : List Byte := as.map (s.readByte .plane)

/-- Linear bytes at the listed addresses. -/
def linearAt (as : List Nat) (s : State) : List Byte := as.map (s.readByte .linear)

/-- STATUS and RESULT. -/
def words (s : State) : Word × Word := (s.readReg .status, s.readReg .result)

/-- The STATUS word. -/
def status (s : State) : Word := s.readReg .status

/-! ### Well-formedness: an ill-formed term for each check -/

theorem test_wf_narrow_write : HostEvent.wf (.regWrite 8 0x08 0) = false := by decide
theorem test_wf_wide_read : HostEvent.wf (.regRead 64 0x08) = false := by decide
theorem test_wf_misaligned_write : HostEvent.wf (.regWrite 32 0x0A 0) = false := by decide
theorem test_wf_misaligned_read : HostEvent.wf (.regRead 32 0x2D) = false := by decide
theorem test_wf_good_write : HostEvent.wf (.regWrite 32 0x2C 0) = true := by decide
theorem test_wf_set_cmd : Stmt.wf (.set .cmd 0) = false := by decide
theorem test_wf_set_status : Stmt.wf (.set .status 0) = false := by decide
theorem test_wf_set_result : Stmt.wf (.set .result 0) = false := by decide
theorem test_wf_set_base : Stmt.wf (.set .base 0) = true := by decide
theorem test_wf_instr : Instr.wf .swizzle = true := by decide
theorem test_admitted_outside : admitted 16 (.lbWrite 15 [1, 2]) = false := by decide
theorem test_admitted_inside : admitted 16 (.lbRead 8 8) = true := by decide

/-! ### Decoding: the word of every command, bit by bit from R46 and R47 (bits[31:4], then OP) -/

theorem test_decode_addr32 : decodeTableWord 32 0b00000000000000000000000000000001 = some .addr32 := by decide
theorem test_decode_addr8 : decodeTableWord 32 0b00000000000000000000000000000010 = some .addr8 := by decide
theorem test_decode_addr4 : decodeTableWord 32 0b00000000000000000000000000000011 = some .addr4 := by decide
theorem test_decode_write32 : decodeTableWord 32 0b00000000000000000000000000000100 = some .write32 := by decide
theorem test_decode_read32 : decodeTableWord 32 0b00000000000000000000000000000101 = some .read32 := by decide
theorem test_decode_write8 : decodeTableWord 32 0b00000000000000000000000000000110 = some .write8 := by decide
theorem test_decode_read8 : decodeTableWord 32 0b00000000000000000000000000000111 = some .read8 := by decide
theorem test_decode_write4 : decodeTableWord 32 0b00000000000000000000000000001000 = some .write4 := by decide
theorem test_decode_read4 : decodeTableWord 32 0b00000000000000000000000000001001 = some .read4 := by decide
theorem test_decode_unswizzle : decodeTableWord 32 0b00000000000000000000000000001010 = some .unswizzle := by decide
theorem test_decode_swizzle : decodeTableWord 32 0b00000000000000000000000000001011 = some .swizzle := by decide

/-- spec/95 section 2.7: OP 0x0, 0xC, 0xF, and words with a bit above OP. -/
theorem test_decode_illegal :
    [0x00000000, 0x0000000C, 0x0000000F, 0x0000001B, 0x10000001].map (decodeTableWord 32) =
      [none, none, none, none, none] := by decide
theorem test_encode : [Instr.addr32, .read4, .unswizzle, .swizzle].map encode = [1, 9, 0xA, 0xB] := by decide

/-! ### The tables (R77) -/

set_option maxRecDepth 8000 in
theorem test_tables_permute : tablesPermute = true := by decide
/-- A table with one entry repeated is no permutation. -/
theorem test_not_a_permutation : isPermutation 4 [0, 1, 1, 3] = false := by decide

/-! ### The memory keeps its canonical form -/

/-- Writing the first content takes the entry off. -/
theorem test_memory_write_back :
    Memory.write (fun _ => 0) 5 0 (Memory.write (fun _ => 0) 5 7 []) = [] := by decide
theorem test_memory_rising :
    Memory.write (fun _ => 0) 2 1 (Memory.write (fun _ => 0) 9 3 (Memory.write (fun _ => 0) 5 7 [])) =
      [(2, 1), (5, 7), (9, 3)] := by decide
theorem test_memory_wf : ¬ Memory.wf (fun _ => 0) 16 [(5, 1), (5, 2)] ∧ ¬ Memory.wf (fun _ => 0) 16 [(3, 0)] ∧
    ¬ Memory.wf (fun _ => 0) 16 [(16, 1)] := by decide

/-! ### ADDR commands (section 2.1: STATUS, RESULT) -/

theorem test_addr32_page : part (exec .addr32 (at_ 0 3 200 40)) words = some (0, 0xC300) := by decide
theorem test_addr32_range : part (exec .addr32 (at_ 0 1 0 16384)) words = some (0x103, 0) := by decide
theorem test_addr8_odd_column : part (exec .addr8 (at_ 0 1 13 7)) words = some (0, 0x6F) := by decide
theorem test_addr8_last : part (exec .addr8 (at_ 0 2 255 127)) words = some (0, 0x7FFF) := by decide
theorem test_addr4_high_nibble : part (exec .addr4 (at_ 0 1 29 6)) words = some (0, 0x400067) := by decide
theorem test_addr4_base : part (exec .addr4 (at_ 32 1 0 0)) words = some (0, 0x2000) := by decide

/-! ### Transfers (sections 2.3 to 2.5) -/

/-- T1. -/
theorem test_write32_words :
    part (exec .write32 (rect (fresh 16 (((List.range' 0x10 16)).map (BitVec.ofNat 8))) 0 2 2))
      (planeAt (List.range 16)) = some ((List.range' 0x10 16).map (BitVec.ofNat 8)) := by decide
set_option maxRecDepth 4000 in
/-- T3: the first and the last of 33 pixels share word 0, and the later one wins. -/
theorem test_write32_later_pixel_wins :
    part (exec .write32 { rect (fresh 132 ((List.range 132).map (BitVec.ofNat 8))) 0 1 33 with bufw := 0 })
      (planeAt [0, 1, 2, 3]) = some [0x80, 0x81, 0x82, 0x83] := by decide
/-- T2: the plane as T10 leaves it, read back as four words to 32. -/
theorem test_read32_words :
    part (exec .read32 { rect { fresh 48 [] with
        plane0 := [0, 0, 8, 0, 1, 0, 9, 0, 0, 0, 0, 0, 0, 0, 0, 0, 2, 0, 10, 0, 3, 0, 11, 0] } 0 4 1 with ldst := 32 })
      (linearAt (List.range' 32 16)) = some [0, 0, 8, 0, 1, 0, 9, 0, 2, 0, 10, 0, 3, 0, 11, 0] := by decide
/-- T9, its pixel addresses read: E_RANGE before E_LINEAR. -/
theorem test_read32_priority :
    part (exec .read32 { rect (fresh 16 []) 2 1 8 with base := 16383, ldst := 1000 }) status = some 0x103 := by decide
/-- T10. -/
theorem test_write8_row :
    part (exec .write8 (rect (fresh 16 ((List.range 16).map (BitVec.ofNat 8))) 0 16 1))
      (planeAt [0, 4, 16, 20, 32, 36, 48, 52, 2, 6, 18, 22, 34, 38, 50, 54, 1]) =
    some [0, 1, 2, 3, 4, 5, 6, 7, 8, 9, 10, 11, 12, 13, 14, 15, 0] := by decide
/-- Row 2 of P1's READ8: F8 pixels (0..3, 2) lie in bytes 0x21, 0x25, 0x31, 0x35 and P1's plane holds 11, 15, 19, 1D
there. -/
theorem test_read8_row :
    part (exec .read8 (rect { fresh 4 [] with
        plane := [(0x21, 0x11), (0x25, 0x15), (0x31, 0x19), (0x35, 0x1D)] } 2 4 1)) (linearAt [0, 1, 2, 3]) =
    some [0x11, 0x15, 0x19, 0x1D] := by decide
/-- T12: an odd count; the high nibble of L[1] is not read. -/
theorem test_write4_odd :
    part (exec .write4 (rect { fresh 2 [0x21, 0xF3] with plane := [(0, 0xA0), (16, 0x50)] } 0 3 1))
      (planeAt [0, 4, 16]) = some [0xA1, 0x02, 0x53] := by decide
/-- T15. -/
theorem test_write4_high_nibble :
    part (exec .write4 (rect (fresh 1 [0x07]) 2 1 1)) (planeAt [0x20]) = some [0x70] := by decide
/-- T13: an odd count keeps the high nibble of the last byte. -/
theorem test_read4_odd :
    part (exec .read4 { rect { fresh 10 [0, 0, 0, 0, 0, 0, 0, 0, 0xEE, 0xEE] with
        plane := [(0, 0x0A), (4, 0x0B), (16, 0x0C)] } 0 3 1 with ldst := 8 }) (linearAt [8, 9]) =
    some [0xBA, 0xEC] := by decide
/-- T6, read: an empty rectangle succeeds. -/
theorem test_read8_empty : part (exec .read8 { rect (fresh 0 []) 0 0 5 with ldst := 7 }) status = some 0 := by decide

/-! ### The orchestrator (section 2.6) -/

/-- T16, T17, T20, T22, T19. -/
theorem test_unswizzle_linear : part (exec .unswizzle (image 1 8 2048 2048 0 0)) status = some 0x104 := by decide
theorem test_unswizzle_range : part (exec .unswizzle (image 1 8 2048 2176 0 0)) status = some 0x103 := by decide
theorem test_swizzle_priority : part (exec .swizzle (image 16 5 128 128 1000 0)) status = some 0x102 := by decide
theorem test_swizzle_linear : part (exec .swizzle (image 16383 8 128 128 0 0)) status = some 0x104 := by decide
/-- UNSWIZZLE, bpp 8, 128x128: input byte 256 (F32 pixel 64) goes to output index 128. -/
theorem test_unswizzle_place8 :
    (image 32768 8 128 128 0 16384).scaledOffset 64 = 8 ∧
    (image 32768 8 128 128 0 16384).imageAddress 128 = { offset := 8, half := 0 } := by decide
/-- UNSWIZZLE, bpp 4, 256x128: input nibble 1 (F32 pixel 0, byte 0, high half) goes to output nibble 516. -/
theorem test_unswizzle_place4 :
    (image 32768 4 256 128 0 16384).scaledOffset 0 = 0 ∧
    (image 32768 4 256 128 0 16384).imageAddress 516 = { offset := 0, half := 1 } := by decide

/-! ### Register accesses, illegal words, resets, hosts -/

/-- BASE keeps its 14 defined bits (R14, R17). -/
theorem test_base_reserved_bits :
    part (perform 0 (.regWrite 32 0x08 0xFFFFFFFF) State.reset) (·.readReg .base) = some 0x3FFF := by decide
theorem test_result_read_only :
    part (perform 0 (.regWrite 32 0x2C 7) (fresh 0 [])) (·.readReg .result) = some 0 := by decide
/-- Section 2.7. -/
theorem test_illegal_word : part (perform 0 (.regWrite 32 0 0x1B) (fresh 0 [])) status = some 0x101 := by decide
/-- P3: STICKY stays 1 through the successful ADDR32, which runs with BUFW 0. -/
theorem test_sticky_stays :
    part (exec .addr32 { at_ 0 0 5 16384 with err := .linear, sticky := true }) words = some (0x100, 0x24) := by decide
theorem test_off_map_read :
    part (perform 0 (.regRead 32 0x30) (fresh 0 [])) (·.agents) = some [⟨[], [.reg 0x30 0]⟩] := by decide
theorem test_host_linear_write :
    part (perform 0 (.lbWrite 2 [0xAB, 0xCD]) (fresh 4 [])) (linearAt [0, 1, 2, 3]) = some [0, 0, 0xAB, 0xCD] := by
  decide
/-- A command placed by withFetchWord runs at the very next step. -/
theorem test_placed_word : part (step ((at_ 0 1 5 3).withFetchWord 32 1)) words = some (0, 0x6C) := by decide
theorem test_reset_event :
    part (perform 0 (.reset [9]) (at_ 1 2 3 4)) (fun t => (t.readReg .rx, t.readByte .plane 0)) = some (0, 9) := by
  decide

/-! ### Listings (R54 to R60; the listings of section 3) -/

theorem test_line_set : readLine "SET LDST, 0x40       ; comment".toList = some (.set .ldst 0x40) := by decide
theorem test_line_lbw : readLine "LBW 0, 21 43 65 87".toList = some (.lbw 0 [0x21, 0x43, 0x65, 0x87]) := by decide
theorem test_line_unswz :
    readLine "UNSWZ 8, 128, 128, 0, 16384".toList = some (.unswz 8 128 128 0 16384) := by decide
theorem test_line_refused : readLine "SET CMD, 1".toList = none := by decide
theorem test_listing_line : listingLine (.regWrite 32 0x28 0x4000) = "W off=0x28 val=0x00004000".toList := by decide

/-! ### Witnesses: for each statement with hypotheses, a state and operands that meet them together -/

/-- An agent that has one transaction to make. -/
def oneEvent (e : HostEvent) : State := { fresh 16 [] with agents := [⟨[e], []⟩], turns := [0] }

theorem test_witness_RegisterWriteStoresDefinedBits :
    (RegName.base, 0x08, 0x3FFF) ∈ parameterRegisters ∧ RegName.status ≠ .base := by decide
theorem test_witness_RegisterReadReturnsValueOnly : (fresh 0 []).agents[0]? = some ⟨[], []⟩ := by decide
theorem test_witness_OffMapOffsets : (fresh 0 []).agents[0]? = some ⟨[], []⟩ ∧ 0x30 % 4 = 0 ∧ 0x30 ≤ 0x30 := by decide
theorem test_witness_RefusedAccesses : ((31 : Nat) < 32 ∨ 0x08 % 4 ≠ 0) ∧ ((32 : Nat) < 32 ∨ 0x2F % 4 ≠ 0) := by decide
theorem test_witness_HostReadsAndWritesLinearBytes :
    (fresh 16 []).agents[0]? = some ⟨[], []⟩ ∧ 14 + ([1, 2] : List Byte).length ≤ (fresh 16 []).lbSize ∧
      14 + 2 ≤ (fresh 16 []).lbSize := by decide
theorem test_witness_HostLinearAccessOutsideFaults :
    ([1, 2] : List Byte) ≠ [] ∧ (fresh 16 []).lbSize < 15 + ([1, 2] : List Byte).length ∧
      (fresh 16 []).lbSize < 16 + 1 := by decide
theorem test_witness_EachCommandHasExactlyOneWord : (0x1B : Word).toNat / 16 ≠ 0 := by decide
theorem test_witness_ReservedOpsRaiseOpcodeError :
    (0x10 : Word).toNat / 16 ≠ 0 ∧ (0 : Word).toNat % 16 = 0 ∧ 12 ≤ (0xC : Word).toNat % 16 := by decide
theorem test_witness_StepTakesTheTurnsFirstTransaction :
    (oneEvent (.reset [])).turns = [0] ∧ (oneEvent (.reset [])).agents[0]? = some ⟨[.reset []], []⟩ := by decide
theorem test_witness_StepRunsTheDecodedCommand :
    (oneEvent (.regWrite 32 0 4)).turns = [0] ∧
      (oneEvent (.regWrite 32 0 4)).agents[0]? = some ⟨[.regWrite 32 0 4], []⟩ ∧
      decodeTableWord 32 4 = some .write32 ∧ decodeTableWord 32 0xC = none := by decide
theorem test_witness_PlacedWordIsDeliveredNext : State.reset.agents ≠ [] := by decide
theorem test_witness_OnlyCommandsAndResetTouchEngineResults :
    State.reset.turns = [] ∧ (part (step (oneEvent (.lbRead 0 16))) status).isSome ∧
      (oneEvent (.lbRead 0 16)).commandDelivered = none ∧ (oneEvent (.lbRead 0 16)).resetDelivered = false := by decide
/-- The last plane word below 2^22 of base page 16383, pixel (7, 7), and the first above it, pixel (8, 0). -/
theorem test_witness_Addr32 :
    ((at_ 16383 1 7 7).pixelAddress .f32).offset = 4194300 ∧
      ((at_ 16383 1 8 0).pixelAddress .f32).offset = 4194304 := by decide
theorem test_witness_Addr8 :
    ((at_ 16383 1 15 15).pixelAddress .f8).offset = 4194303 ∧
      ((at_ 16383 1 16 0).pixelAddress .f8).offset = 4194304 := by decide
theorem test_witness_Addr4 :
    ((at_ 16383 1 31 15).pixelAddress .f4) = { offset := 4194303, half := 1 } ∧
      ((at_ 16383 1 0 16).pixelAddress .f4).offset = 4194304 := by decide
theorem test_witness_PageAddressesAreABijection :
    8188 < 8192 ∧ isPlace .f32 8188 0 ∧ isPlace .f8 8191 0 ∧ isPlace .f4 8191 1 := by unfold isPlace; decide
theorem test_witness_WholePageRectanglesCoverOneToOne :
    127 < 1 * (geometry .f8).pageW ∧ 63 < 1 * (geometry .f8).pageH ∧ 8191 < 1 * 1 * 8192 ∧ isPlace .f8 8191 0 := by
  unfold isPlace; decide
theorem test_witness_OneWordIsFourBytePixels : 3 < 4 ∧ 1 < 2 := by decide

/-- A rectangle whose last pixel no other pixel follows. -/
theorem last_pixel (n : Nat) {p : Nat → Prop} : ∀ j, n - 1 < j → j < n → p j := fun j h1 h2 => by omega

theorem test_witness_Write32_fits :
    (rect (fresh 16 []) 0 2 2).TransferFits .f32 0 ∧ 3 < (rect (fresh 16 []) 0 2 2).pixelCount := by decide
theorem test_witness_Write32_range :
    ∃ k < ({ rect (fresh 0 []) 2 1 8 with base := 16383 } : State).pixelCount,
      4194304 ≤ (({ rect (fresh 0 []) 2 1 8 with base := 16383 } : State).rectAddress .f32 k).offset :=
  ⟨6, by decide, by decide⟩
theorem test_witness_Write32_linear :
    (∀ k < (rect (fresh 15 []) 0 2 2).pixelCount, ((rect (fresh 15 []) 0 2 2).rectAddress .f32 k).offset < 4194304) ∧
      0 < linearLength .f32 (rect (fresh 15 []) 0 2 2).pixelCount ∧
      15 < 0 + linearLength .f32 (rect (fresh 15 []) 0 2 2).pixelCount := by decide
theorem test_witness_Write32_last :
    ∀ j, 3 < j → j < (rect (fresh 16 []) 0 2 2).pixelCount →
      ((rect (fresh 16 []) 0 2 2).rectAddress .f32 j).offset ≠
        ((rect (fresh 16 []) 0 2 2).rectAddress .f32 3).offset :=
  last_pixel 4
/-- A plane byte that no pixel of the rectangle covers: byte 16. -/
theorem test_witness_Write32_miss :
    ∀ k < (rect (fresh 16 []) 0 2 2).pixelCount,
      16 < ((rect (fresh 16 []) 0 2 2).rectAddress .f32 k).offset ∨
        ((rect (fresh 16 []) 0 2 2).rectAddress .f32 k).offset + 4 ≤ 16 := by decide
theorem test_witness_Write8 :
    (rect (fresh 16 []) 0 16 1).TransferFits .f8 0 ∧
      (∀ k < (rect (fresh 16 []) 0 16 1).pixelCount, ((rect (fresh 16 []) 0 16 1).rectAddress .f8 k).offset ≠ 1) ∧
      (∃ k < (rect (at_ 16383 1 1 0) 16 1 1).pixelCount,
        4194304 ≤ ((rect (at_ 16383 1 1 0) 16 1 1).rectAddress .f8 k).offset) ∧
      (∀ k < (rect (fresh 15 []) 0 16 1).pixelCount,
        ((rect (fresh 15 []) 0 16 1).rectAddress .f8 k).offset < 4194304) ∧
      15 < 0 + linearLength .f8 (rect (fresh 15 []) 0 16 1).pixelCount := by decide
theorem test_witness_Write8_last :
    ∀ j, 15 < j → j < (rect (fresh 16 []) 0 16 1).pixelCount →
      ((rect (fresh 16 []) 0 16 1).rectAddress .f8 j).offset ≠
        ((rect (fresh 16 []) 0 16 1).rectAddress .f8 15).offset :=
  last_pixel 16
theorem test_witness_Write4 :
    (rect (fresh 2 []) 0 3 1).TransferFits .f4 0 ∧
      (∀ k < (rect (fresh 2 []) 0 3 1).pixelCount,
        (rect (fresh 2 []) 0 3 1).rectAddress .f4 k ≠ { offset := 0, half := 1 }) ∧
      (∀ k < (rect (fresh 2 []) 0 3 1).pixelCount, ((rect (fresh 2 []) 0 3 1).rectAddress .f4 k).offset ≠ 1) ∧
      (∃ k < (rect (at_ 16383 1 1 0) 16 1 1).pixelCount,
        4194304 ≤ ((rect (at_ 16383 1 1 0) 16 1 1).rectAddress .f4 k).offset) ∧
      (∀ k < (rect (fresh 1 []) 0 3 1).pixelCount, ((rect (fresh 1 []) 0 3 1).rectAddress .f4 k).offset < 4194304) ∧
      1 < 0 + linearLength .f4 (rect (fresh 1 []) 0 3 1).pixelCount := by decide
theorem test_witness_Write4_last :
    ∀ j, 2 < j → j < (rect (fresh 2 []) 0 3 1).pixelCount →
      (rect (fresh 2 []) 0 3 1).rectAddress .f4 j ≠ (rect (fresh 2 []) 0 3 1).rectAddress .f4 2 :=
  last_pixel 3
/-- The READ commands, over the same rectangles: LDST is 0 there, as LSRC is, so that the states of the WRITE commands'
error clauses meet those of the READ commands too. -/
theorem test_witness_Reads :
    (rect (fresh 16 []) 0 2 2).TransferFits .f32 (rect (fresh 16 []) 0 2 2).ldst.toNat ∧
      (rect (fresh 16 []) 0 16 1).TransferFits .f8 (rect (fresh 16 []) 0 16 1).ldst.toNat ∧
      (rect (fresh 2 []) 0 3 1).TransferFits .f4 (rect (fresh 2 []) 0 3 1).ldst.toNat ∧
      (rect (fresh 2 []) 0 3 1).pixelCount % 2 = 1 := by decide
theorem test_witness_EmptyRectangleSucceeds :
    (rect (fresh 0 []) 0 0 5).rw = 0 ∧ (rect (fresh 0 []) 0 5 0).rh = 0 ∧ Instr.read4 ∈ [Instr.write4, .read4] := by
  decide
theorem pixels_apart (f : Format) {j k : Nat} (hj : j < (rect (fresh 16 []) 0 2 1).pixelCount)
    (hk : k < (rect (fresh 16 []) 0 2 1).pixelCount) :
    (rect (fresh 16 []) 0 2 1).rectAddress f j = (rect (fresh 16 []) 0 2 1).rectAddress f k → j = k := by
  have h : ∀ j < 2, ∀ k < 2,
      (rect (fresh 16 []) 0 2 1).rectAddress f j = (rect (fresh 16 []) 0 2 1).rectAddress f k → j = k := by
    cases f <;> decide
  exact h j hj k hk
theorem test_witness_WriteThenReadReturnsTheData (f : Format) :
    (rect (fresh 16 []) 0 2 1).TransferFits f 0 ∧
      (∀ j k, j < (rect (fresh 16 []) 0 2 1).pixelCount → k < (rect (fresh 16 []) 0 2 1).pixelCount →
        (rect (fresh 16 []) 0 2 1).rectAddress f j = (rect (fresh 16 []) 0 2 1).rectAddress f k → j = k) ∧
      ∃ t, exec (match f with | .f32 => Instr.write32 | .f8 => .write8 | .f4 => .write4)
        (rect (fresh 16 []) 0 2 1) = .next t :=
  ⟨by cases f <;> decide, fun _ _ hj hk => pixels_apart f hj hk, by cases f <;> exact ⟨_, rfl⟩⟩

/-- An image that fits, at either depth; two of its sizes meet the plane's and the buffer's end exactly. -/
theorem image_fits (bpp : Nat) (h : bpp = 4 ∨ bpp = 8) : (image 49152 bpp 128 128 0 16384).OrchestratorFits := by
  rcases h with rfl | rfl <;> exact ⟨by decide, by decide, by decide, by decide⟩
/-- Both commands answer a next state there. -/
theorem image_next (bpp : Nat) (i : Instr) :
    ∃ t, exec i (image 49152 bpp 128 128 0 16384) = .next t := by
  rcases exec_cases i (image 49152 bpp 128 128 0 16384) with h | ⟨e, -, -, h⟩
  · exact ⟨_, h⟩
  · exact ⟨_, h⟩
theorem test_witness_OrchestratorChecks_fits :
    (image 4194304 8 2048 2048 0 0).OrchestratorFits ∧ (image 49152 4 128 128 0 16384).OrchestratorFits :=
  ⟨⟨by decide, by decide, by decide, by decide⟩, image_fits 4 (.inl rfl)⟩
theorem test_witness_OrchestratorChecks_errors :
    ¬ (image 16 8 100 128 0 0).SizesLegal ∧ ¬ (image 16 8 0 128 0 0).SizesLegal ∧
      ¬ (image 16 5 128 128 0 0).SizesLegal ∧
      ((image 1 8 2048 2176 0 0).SizesLegal ∧ 4194304 < (image 1 8 2048 2176 0 0).streamLength) ∧
      ((image 4194303 8 2048 2048 0 0).SizesLegal ∧ (image 4194303 8 2048 2048 0 0).streamLength ≤ 4194304 ∧
        4194303 < 0 + (image 4194303 8 2048 2048 0 0).streamLength) := by decide
theorem test_witness_OrchestratorPlaneSideEffect :
    (image 49152 4 128 128 0 16384).OrchestratorFits ∧
      (∃ t, exec .unswizzle (image 49152 4 128 128 0 16384) = .next t) ∧
      ∃ u, exec .swizzle (image 49152 4 128 128 0 16384) = .next u :=
  ⟨image_fits 4 (.inl rfl), image_next 4 _, image_next 4 _⟩
/-- UnswizzleMovesEachPixel and SwizzleMovesEachPixel: the image, and a pixel of the output in a byte of the input
(section 2.6: input byte 256 and output index 128). -/
theorem test_witness_MovesEachPixel :
    (image 49152 8 128 128 0 16384).OrchestratorFits ∧
      (∃ t, exec .unswizzle (image 49152 8 128 128 0 16384) = .next t) ∧
      (∃ t, exec .swizzle (image 49152 8 128 128 0 16384) = .next t) ∧
      ((image 49152 8 128 128 0 16384).imageAddress 128).offset =
        (image 49152 8 128 128 0 16384).scaledOffset 64 + 0 :=
  ⟨image_fits 8 (.inr rfl), image_next 8 _, image_next 8 _, by decide⟩
/-- Two states that differ in the plane, in BASE and in where the output goes. -/
theorem test_witness_OrchestratorOutputDependsOnInputAlone :
    (image 49152 8 128 128 0 16384).OrchestratorFits ∧
      ({ image 49152 8 128 128 0 32768 with plane0 := [1], base := 5 } : State).OrchestratorFits ∧
      (∃ t, exec .swizzle (image 49152 8 128 128 0 16384) = .next t) ∧
      ∃ t, exec .swizzle { image 49152 8 128 128 0 32768 with plane0 := [1], base := 5 } = .next t :=
  ⟨image_fits 8 (.inr rfl), ⟨by decide, by decide, by decide, by decide⟩, image_next 8 _, by
    rcases exec_cases .swizzle { image 49152 8 128 128 0 32768 with plane0 := [1], base := 5 } with h | ⟨e, -, -, h⟩
    · exact ⟨_, h⟩
    · exact ⟨_, h⟩⟩
theorem test_witness_SwizzleAndUnswizzleAreInverse :
    (image 49152 8 128 128 0 16384).OrchestratorFits ∧
      (32768 : BitVec 32).toNat + (image 49152 8 128 128 0 16384).streamLength ≤ 49152 ∧
      ∃ t u, exec .unswizzle (image 49152 8 128 128 0 16384) = .next t ∧
        exec .swizzle { t with lsrc := 16384, ldst := 32768 } = .next u := by
  refine ⟨image_fits 8 (.inr rfl), by decide, ?_⟩
  obtain ⟨t, ht⟩ := image_next 8 .unswizzle
  rcases exec_cases .swizzle { t with lsrc := 16384, ldst := 32768 } with h | ⟨e, -, -, h⟩
  · exact ⟨t, _, ht, h⟩
  · exact ⟨t, _, ht, h⟩
theorem test_witness_FailedCommandChangesStatusOnly : ∃ t, hostCommand 0 (fresh 0 []) = .next t ∧ t.err ≠ .ok :=
  ⟨_, rfl, by decide⟩
theorem test_witness_CommandsKeepTheirOperands (i : Instr) : ∃ t, exec i (fresh 0 []) = .next t := by
  rcases exec_cases i (fresh 0 []) with h | ⟨e, -, -, h⟩
  · exact ⟨_, h⟩
  · exact ⟨_, h⟩
/-- A run of one step that delivers an illegal word, and no reset. -/
theorem test_witness_StickyExactlyWhenACommandFailed :
    (oneEvent (.regWrite 32 0 0)).sticky = false ∧ (∃ t, core.run 1 (oneEvent (.regWrite 32 0 0)) = .next t) ∧
      ∀ m < 1, ∀ u, core.run m (oneEvent (.regWrite 32 0 0)) = .next u → State.resetDelivered u = false := by
  refine ⟨rfl, ⟨_, rfl⟩, fun m hm u hu => ?_⟩
  obtain rfl : m = 0 := by omega
  obtain rfl : oneEvent (.regWrite 32 0 0) = u := by injection hu
  decide
theorem test_witness_EveryStepKeepsTheInvariant :
    (oneEvent (.lbWrite 0 [7])).Inv ∧ ∃ t, step (oneEvent (.lbWrite 0 [7])) = .next t :=
  ⟨by decide, _, rfl⟩
theorem test_witness_EqualMemoriesAreEqualData :
    ({ fresh 16 [] with linear := [(3, 7)] } : State).MemoryCanonical ∧
      ({ fresh 16 [] with linear := [(3, 7)], rx := 5 } : State).MemoryCanonical := by decide
theorem test_witness_InterleavingDecidesSharedRegisters :
    ((at_ 0 1 0 0).pixelAddress .f32).offset < 4194304 ∧ ((at_ 0 1 1 0).pixelAddress .f32).offset < 4194304 := by decide
theorem test_witness_AdmittedRunsNeverStop : (oneEvent (.regWrite 32 0x2C 1)).Admitted := by decide

end Sys2Proof.Tests
end

section
/-! PROOFS. The statements of spec/30_encoding.md: the one word of each command (R48), the illegal words (R49, R50) and
the pseudo-instructions (R56 to R58). The idea: the decoder is inverse to the encoder, so a word is illegal exactly when
no command has it, and a command's word is a number from 1 to 11. -/

namespace Sys2Proof

/-! ### The decoder and the encoder -/

@[simp] theorem decode_encode (i : Instr) : decode (encode i) = .ok i := by
  cases i <;> rfl

@[simp] theorem toNat_encode (i : Instr) : (encode i).toNat = (opcode i).toNat :=
  (BitVec.toNat_append 0 (opcode i)).trans (by simp)

/-- The OPs of R47. -/
theorem opcode_bounds (i : Instr) : 1 ≤ (opcode i).toNat ∧ (opcode i).toNat ≤ 11 := by
  cases i <;> decide

/-- A word the decoder takes has RSVD 0 and the command's OP. -/
theorem fields_of_decode_ok {w : Word} {i : Instr} (h : decode w = .ok i) :
    reservedField w = 0 ∧ opField w = (opcode i).toNat := by
  unfold decode at h
  split at h
  case isTrue hr =>
    refine ⟨hr, ?_⟩
    split at h <;> cases h <;> assumption
  case isFalse => cases h

theorem decode_eq_ok_iff (w : Word) (i : Instr) : decode w = .ok i ↔ w = encode i := by
  constructor
  · intro h
    obtain ⟨hr, ho⟩ := fields_of_decode_ok h
    have hw : w.toNat = (opcode i).toNat := by
      unfold reservedField at hr
      unfold opField at ho
      omega
    exact BitVec.eq_of_toNat_eq (hw.trans (toNat_encode i).symm)
  · rintro rfl
    exact decode_encode i

/-- A word with a reserved bit or a reserved OP is no command's word (R48, R49). -/
theorem ne_encode_of_reserved {w : Word} (h : w.toNat / 16 ≠ 0 ∨ w.toNat % 16 = 0 ∨ 12 ≤ w.toNat % 16) (i : Instr) :
    w ≠ encode i := by
  rintro rfl
  have hb := opcode_bounds i
  rw [toNat_encode] at h
  omega

namespace Machine

/-! ### The delivery of a word -/

theorem hostCommand_encode (i : Instr) (s : State) : hostCommand (encode i) s = exec i s := by
  simp [hostCommand]

/-- A word of no command ends with E_OPCODE and no other effect (R116). -/
theorem hostCommand_of_ne_encode {w : Word} (h : ∀ i, w ≠ encode i) (s : State) :
    hostCommand w s = .next (s.failedWith .opcode) := by
  rcases hostCommand_cases w s with ⟨i, hi, -⟩ | ⟨-, hc⟩
  · exact absurd ((decode_eq_ok_iff w i).mp hi) (h i)
  · rw [hc, s.complete_eq_failedWith (by decide)]

/-! ### The statements -/

/-- Settles O10: the decoder is inverse to the encoder, and a word with a reserved bit is no command's. -/
theorem eachCommandHasExactlyOneWord : Obligations.EachCommandHasExactlyOneWord :=
  ⟨decode_eq_ok_iff, toNat_encode, fun _ s h => hostCommand_of_ne_encode (ne_encode_of_reserved (.inl h)) s⟩

/-- Settles O11: a reserved word is no command's. -/
theorem reservedOpsRaiseOpcodeError : Obligations.ReservedOpsRaiseOpcodeError :=
  fun _ s h => hostCommand_of_ne_encode (ne_encode_of_reserved h) s

/-- Settles O12, by whether some command has the word. -/
theorem everyWordIsACommandOrIllegal : Obligations.EveryWordIsACommandOrIllegal := by
  intro w
  by_cases h : ∃ i, w = encode i
  · obtain ⟨i, rfl⟩ := h
    exact .inl ⟨i, rfl, hostCommand_encode i⟩
  · have hne : ∀ i, w ≠ encode i := not_exists.mp h
    exact .inr ⟨hne, hostCommand_of_ne_encode hne⟩

/-- Settles O55: each expansion computes to the listed transactions. -/
theorem pseudoInstructionsExpand : Obligations.PseudoInstructionsExpand := by
  intro x y w h b src dst
  exact ⟨rfl, rfl, rfl, rfl, rfl, rfl⟩

end Machine
end Sys2Proof
end

section
/-! PROOFS. The statements of spec/40_address_engine.md on the fixed tables (R76), the ADDR commands (R78 to R83) and
aliasing (R85). The ideas: one lemma says what an ADDR command does in any format, and each formula is `addressOf`
unfolded at one format; two pixels share an address when they agree in the page
and in the place within it. -/

namespace Sys2Proof.Machine

/-! ### The fixed tables -/

/-- Settles O20: one finite check of the entries for each kind of table. -/
theorem tablesEqualClosedForms : Obligations.TablesEqualClosedForms := by
  refine ⟨?block32And8, ?block4, ?colWord32, ?column8, ?column4⟩
  case block32And8 => decide
  case block4 => decide
  case colWord32 => decide
  case column8 => decide
  case column4 => decide

/-! ### The ADDR commands -/

/-- RESULT holds the offset below bit 22 and the half in bit 22 (R23). -/
theorem State.setResult_of_lt (s : State) {p : PixelAddr} (h : p.offset < Config.planeSize) :
    s.setResult p = { s with result := BitVec.ofNat 23 (p.offset + p.half * 4194304) } := by
  have hor : p.offset ||| (p.half <<< 22) = p.offset + p.half * 4194304 := by
    rw [Nat.or_comm, ← Nat.shiftLeft_add_eq_or_of_lt h, Nat.shiftLeft_eq, Nat.add_comm]
  rw [State.setResult, hor]

/-- What an ADDR command does on each side of the plane's end (R81 to R83). -/
theorem addressCommand_spec {f : Format} {s : State} {off half : Nat}
    (hp : s.pixelAddress f = { offset := off, half := half }) :
    (off < 4194304 → addressCommand f s =
      .next { s with result := BitVec.ofNat 23 (off + half * 4194304), err := .ok }) ∧
    (4194304 ≤ off → addressCommand f s = .next (s.failedWith .range)) := by
  rcases addressCommand_cases f s with ⟨hlt, hc⟩ | ⟨hle, hc⟩
  · rw [hp] at hlt hc
    refine ⟨fun _ => ?_, fun h => absurd hlt h.not_gt⟩
    rw [hc, s.setResult_of_lt hlt]
    simp [State.complete]
  · rw [hp] at hle
    refine ⟨fun h => absurd hle h.not_ge, fun _ => ?_⟩
    rw [hc, s.complete_eq_failedWith (by decide)]

/-- A command whose half is 0 writes the bare offset (R81, R82). -/
theorem addressCommand_spec_half_zero {f : Format} {s : State} {off : Nat}
    (hp : s.pixelAddress f = { offset := off, half := 0 }) :
    (off < 4194304 → addressCommand f s = .next { s with result := BitVec.ofNat 23 off, err := .ok }) ∧
    (4194304 ≤ off → addressCommand f s = .next (s.failedWith .range)) := by
  simpa only [Nat.zero_mul, Nat.add_zero] using addressCommand_spec hp

/-- Settles O17: the formula is `addressOf` at F32, with half 0. -/
theorem addr32WritesResultOrRaisesRange : Obligations.Addr32WritesResultOrRaisesRange := by
  intro s
  exact addressCommand_spec_half_zero (f := .f32) rfl

/-- Settles O18: the formula is `addressOf` at F8, with half 0. -/
theorem addr8WritesResultOrRaisesRange : Obligations.Addr8WritesResultOrRaisesRange := by
  intro s
  exact addressCommand_spec_half_zero (f := .f8) rfl

/-- Settles O19: the formula is `addressOf` at F4. -/
theorem addr4WritesResultOrRaisesRange : Obligations.Addr4WritesResultOrRaisesRange := by
  intro s
  exact addressCommand_spec (f := .f4) rfl

/-! ### Aliasing -/

theorem pageW_pos (f : Format) : 0 < (geometry f).pageW := by
  cases f <;> decide

theorem pageH_pos (f : Format) : 0 < (geometry f).pageH := by
  cases f <;> decide

/-- The page `bw` pages to the right is the page one page row below (R85). -/
theorem pageOf_add_bufferWidth (f : Format) (bw x y : Nat) :
    pageOf f bw (x + (geometry f).pageW * bw) y = pageOf f bw x (y + (geometry f).pageH) := by
  simp only [pageOf, Nat.add_mul_div_left _ _ (pageW_pos f), Nat.add_div_right _ (pageH_pos f), Nat.succ_mul]
  omega

theorem pageOf_bufferWidth_zero (f : Format) (x y : Nat) : pageOf f 0 x y = x / (geometry f).pageW := by
  simp [pageOf]

/-- Settles O25: the two pixels share the page and the place within it. -/
theorem pixelsOutsideTheBufferWidthAlias : Obligations.PixelsOutsideTheBufferWidthAlias := by
  intro f bp bw x y n
  constructor
  · rw [addressOf_eq_iff]
    exact ⟨pageOf_add_bufferWidth f bw x y, Nat.add_mul_mod_self_left .., (Nat.add_mod_right ..).symm⟩
  · rw [addressOf_eq_iff]
    exact ⟨by simp only [pageOf_bufferWidth_zero], rfl, Nat.add_mul_mod_self_right ..⟩

end Sys2Proof.Machine
end

section
/-! PROOFS. The statements of spec/41_transfer.md: the six WRITE and READ commands (R86 to R97), what every command
leaves unchanged (R98, R109), and the whole-page rectangle (R100). The ideas: one lemma says when a WRITE or READ of any
format fails and when it runs its pass, and each statement adds to it what that format's pass stores; a whole-page
rectangle is one to one because page number `X + Y * P` determines `X < P` and `Y`. -/

namespace Sys2Proof.Machine

/-! ### Whole-page rectangles -/

theorem pageX_lt {f : Format} {P x : Nat} (hx : x < P * (geometry f).pageW) : x / (geometry f).pageW < P :=
  Nat.div_lt_of_lt_mul (Nat.mul_comm P _ ▸ hx)

/-- In a buffer `P` pages wide a page's number determines its column of pages (R62). -/
theorem pageOf_mod {f : Format} {P x : Nat} (hx : x < P * (geometry f).pageW) (y : Nat) :
    pageOf f P x y % P = x / (geometry f).pageW := by
  rw [pageOf, Nat.add_mul_mod_self_right, Nat.mod_eq_of_lt (pageX_lt hx)]

/-- In a buffer `P` pages wide a page's number determines its row of pages (R62). -/
theorem pageOf_div {f : Format} {P x : Nat} (hx : x < P * (geometry f).pageW) (y : Nat) :
    pageOf f P x y / P = y / (geometry f).pageH := by
  have hX := pageX_lt hx
  rw [pageOf, Nat.add_mul_div_right _ _ (Nat.zero_lt_of_lt hX), Nat.div_eq_of_lt hX, Nat.zero_add]

/-- Within the buffer's width no two pixels alias (R85). -/
theorem pixel_eq_of_addressOf_eq {f : Format} {bp P x y x' y' : Nat} (hx : x < P * (geometry f).pageW)
    (hx' : x' < P * (geometry f).pageW) (h : addressOf f bp P x' y' = addressOf f bp P x y) : x' = x ∧ y' = y := by
  obtain ⟨hpage, hmx, hmy⟩ := (addressOf_eq_iff f bp P x' y' x y).mp h
  have hdx : x' / (geometry f).pageW = x / (geometry f).pageW := by rw [← pageOf_mod hx' y', hpage, pageOf_mod hx y]
  have hdy : y' / (geometry f).pageH = y / (geometry f).pageH := by rw [← pageOf_div hx' y', hpage, pageOf_div hx y]
  exact ⟨Nat.ext_div_modEq hdx hmx, Nat.ext_div_modEq hdy hmy⟩

/-- A place of the plane is the same place of its page, for pages are whole words. -/
theorem isPlace_mod_page {f : Format} {off half : Nat} (h : isPlace f off half) : isPlace f (off % 8192) half := by
  cases f
  case f32 => exact ⟨by rw [Nat.mod_mod_of_dvd off (by norm_num), h.1], h.2⟩
  case f8 => exact h
  case f4 => exact h

/-- The pixel `(X * w + x, Y * h + y)` of page `(X, Y)` lies in a rectangle of more than `X` by `Y` whole pages. -/
theorem page_mul_add_lt {X P w x : Nat} (hX : X < P) (hx : x < w) : X * w + x < P * w :=
  calc X * w + x < (X + 1) * w := by rw [Nat.succ_mul]; omega
    _ ≤ P * w := Nat.mul_le_mul_right w hX

/-- Every place of the first `P * Q` pages is the address of a pixel of the whole-page rectangle (R100). -/
theorem exists_pixel_of_place (f : Format) (bp : Nat) {P Q off half : Nat} (hoff : off < P * Q * 8192)
    (hplace : isPlace f off half) :
    ∃ x y, x < P * (geometry f).pageW ∧ y < Q * (geometry f).pageH ∧
      addressOf f bp P x y = { offset := 256 * bp + off, half := half } := by
  have hpage : off / 8192 < P * Q := Nat.div_lt_of_lt_mul (by omega)
  have hP : 0 < P := Nat.pos_of_ne_zero (by rintro rfl; simp at hpage)
  have hX : off / 8192 % P < P := Nat.mod_lt _ hP
  have hY : off / 8192 / P < Q := Nat.div_lt_of_lt_mul hpage
  obtain ⟨hx, hy, ha⟩ := addressOf_localPixel f bp P (off / 8192 % P) (off / 8192 / P) (off % 8192) half
    ⟨Nat.mod_lt _ (by norm_num), isPlace_mod_page hplace⟩
  refine ⟨_, _, page_mul_add_lt hX hx, page_mul_add_lt hY hy, ha.trans ?_⟩
  have hnumber : off / 8192 % P + off / 8192 / P * P = off / 8192 := Nat.mod_add_div' _ _
  rw [hnumber, PixelAddr.mk.injEq]
  exact ⟨by omega, rfl⟩

/-- Settles O26: the pages of the rectangle are the first `P * Q`, each filled by its pixels, and no two pixels of the
rectangle alias. -/
theorem wholePageRectanglesCoverOneToOne : Obligations.WholePageRectanglesCoverOneToOne := by
  intro f bp P Q
  constructor
  · intro x y hx hy
    have hpage := pageOf_lt hx hy
    have hbounds := addressOf_bounds f bp P x y
    omega
  · intro off half hoff hplace
    obtain ⟨x, y, hx, hy, ha⟩ := exists_pixel_of_place f bp hoff hplace
    exact ⟨x, y, hx, hy, ha, fun x' y' hx' _ ha' => pixel_eq_of_addressOf_eq hx hx' (ha'.trans ha.symm)⟩

/-! ### The checks of a WRITE or READ command -/

theorem State.rectPass_inPlane_iff (s : State) (lin : Nat) (f : Format) :
    (s.rectPass lin).inPlane f = true ↔ ∀ k < s.pixelCount, (s.rectAddress f k).offset < 4194304 :=
  Pass.inPlane_iff _ f

theorem State.rectPass_inLinear_iff (s : State) (lin : Nat) (f : Format) :
    (s.rectPass lin).inLinear f s.lbSize = true ↔
      (0 < linearLength f s.pixelCount → lin + linearLength f s.pixelCount ≤ s.lbSize) := by
  rw [Pass.inLinear_iff, Nat.pos_iff_ne_zero, imp_iff_not_or, not_not]
  rfl

/-- A command with the three outcomes of R86 ends with the error of its checks, or has its effect. -/
theorem State.transfer_spec {s u : State} {i : Instr} {f : Format} {lin : Nat}
    (h : ((s.rectPass lin).inPlane f = false ∧ exec i s = .next (s.complete .range)) ∨
      ((s.rectPass lin).inPlane f = true ∧ (s.rectPass lin).inLinear f s.lbSize = false ∧
        exec i s = .next (s.complete .linear)) ∨
      ((s.rectPass lin).inPlane f = true ∧ (s.rectPass lin).inLinear f s.lbSize = true ∧
        exec i s = .next (u.complete .ok))) :
    s.TransferErrors i f lin ∧ (s.TransferFits f lin → exec i s = .next (u.complete .ok)) := by
  simp only [← Bool.not_eq_true, State.rectPass_inPlane_iff, State.rectPass_inLinear_iff] at h
  rcases h with ⟨hout, he⟩ | ⟨hin, hout, he⟩ | ⟨hin, hfit, he⟩
  · rw [s.complete_eq_failedWith (by decide)] at he
    exact ⟨⟨fun _ => he, fun hin => absurd hin hout⟩, fun hfits => absurd hfits.1 hout⟩
  · rw [s.complete_eq_failedWith (by decide)] at he
    exact ⟨⟨fun ⟨k, hk, hge⟩ => absurd (hin k hk) hge.not_gt, fun _ _ _ => he⟩,
      fun hfits => absurd hfits.2 hout⟩
  · exact ⟨⟨fun ⟨k, hk, hge⟩ => absurd (hin k hk) hge.not_gt,
      fun _ hpos hlt => absurd (hfit hpos) hlt.not_ge⟩, fun _ => he⟩

/-- A WRITE command of any format: its errors, or its pass (R86, R90, R92, R95). -/
theorem exec_write_spec {i : Instr} {f : Format} {s : State} (hi : exec i s = writeCommand f s) :
    s.TransferErrors i f s.lsrc.toNat ∧
    (s.TransferFits f s.lsrc.toNat → exec i s = .next ((writerPass f s.writePass s).complete .ok)) :=
  State.transfer_spec (hi ▸ writeCommand_cases f s)

/-- A READ command of any format: its errors, or its pass (R86, R91, R93, R96). -/
theorem exec_read_spec {i : Instr} {f : Format} {s : State} (hi : exec i s = readCommand f s) :
    s.TransferErrors i f s.ldst.toNat ∧
    (s.TransferFits f s.ldst.toNat → exec i s = .next ((readerPass f s.readPass s).complete .ok)) :=
  State.transfer_spec (hi ▸ readCommand_cases f s)

/-! ### What a pass leaves unchanged -/

theorem State.complete_ok (s : State) : s.complete .ok = { s with err := .ok } := by
  simp [State.complete]

/-- A writer changes the plane alone (R98). -/
theorem writerPass_complete_ok (f : Format) (p : Pass) (s : State) :
    (writerPass f p s).complete .ok = { s with plane := (writerPass f p s).plane, err := .ok } := by
  ext1 <;> simp

/-- A reader changes the linear buffer alone (R98). -/
theorem readerPass_complete_ok (f : Format) (p : Pass) (s : State) :
    (readerPass f p s).complete .ok = { s with linear := (readerPass f p s).linear, err := .ok } := by
  ext1 <;> simp

/-! ### The WRITE commands -/

/-- Settles O28: the checks, then the words that the pass stores and those it leaves. -/
theorem write32StoresTheRectangle : Obligations.Write32StoresTheRectangle := by
  intro s
  obtain ⟨herr, hok⟩ := exec_write_spec (i := .write32) (f := .f32) (s := s) rfl
  refine ⟨herr, fun hfits => ⟨_, hok hfits, writerPass_complete_ok _ _ s, ?_⟩⟩
  simp only [State.readByte_complete]
  exact ⟨fun _ hk _ hi hlast => writerPass_f32_hit s.writePass s hk hi hlast,
    fun _ hmiss => writerPass_f32_miss s.writePass s hmiss⟩

/-- Settles O29: the checks, then the bytes that the pass stores and those it leaves. -/
theorem write8StoresTheRectangle : Obligations.Write8StoresTheRectangle := by
  intro s
  obtain ⟨herr, hok⟩ := exec_write_spec (i := .write8) (f := .f8) (s := s) rfl
  refine ⟨herr, fun hfits => ⟨_, hok hfits, writerPass_complete_ok _ _ s, ?_⟩⟩
  simp only [State.readByte_complete]
  exact ⟨fun _ hk hlast => writerPass_f8_hit s.writePass s hk hlast,
    fun _ hmiss => writerPass_f8_miss s.writePass s hmiss⟩

/-- Settles O30: the checks, then the nibbles that the pass stores, and the nibbles and bytes it leaves. -/
theorem write4StoresTheRectangle : Obligations.Write4StoresTheRectangle := by
  intro s
  obtain ⟨herr, hok⟩ := exec_write_spec (i := .write4) (f := .f4) (s := s) rfl
  refine ⟨herr, fun hfits => ⟨_, hok hfits, writerPass_complete_ok _ _ s, ?_⟩⟩
  simp only [State.readByte_complete]
  exact ⟨fun _ hk hlast => writerPass_f4_hit s.writePass s hk hlast,
    fun _ _ hh hmiss => writerPass_f4_miss s.writePass s hh hmiss,
    fun _ hmiss => writerPass_f4_missByte s.writePass s hmiss⟩

/-! ### The READ commands -/

/-- Settles O31: the checks, then the words that the pass loads and the bytes outside them. -/
theorem read32LoadsTheRectangle : Obligations.Read32LoadsTheRectangle := by
  intro s
  obtain ⟨herr, hok⟩ := exec_read_spec (i := .read32) (f := .f32) (s := s) rfl
  refine ⟨herr, fun hfits => ⟨_, hok hfits, readerPass_complete_ok _ _ s, ?_⟩⟩
  simp only [State.readByte_complete]
  exact ⟨fun _ hk _ hi => readerPass_f32_hit s.readPass s hk hi,
    fun _ hmiss => readerPass_f32_miss s.readPass s hmiss⟩

/-- Settles O32: the checks, then the bytes that the pass loads and those outside them. -/
theorem read8LoadsTheRectangle : Obligations.Read8LoadsTheRectangle := by
  intro s
  obtain ⟨herr, hok⟩ := exec_read_spec (i := .read8) (f := .f8) (s := s) rfl
  refine ⟨herr, fun hfits => ⟨_, hok hfits, readerPass_complete_ok _ _ s, ?_⟩⟩
  simp only [State.readByte_complete]
  exact ⟨fun _ hk => readerPass_f8_hit s.readPass s hk,
    fun _ hmiss => readerPass_f8_miss s.readPass s hmiss⟩

/-- With an odd count no pixel goes to the high nibble of the last byte (R96). -/
theorem readerPass_f4_keepsOddNibble (p : Pass) (s : State) (hodd : p.count % 2 = 1) :
    (readerPass .f4 p s).readNibble .linear (p.lin + p.count / 2) 1 =
      s.readNibble .linear (p.lin + p.count / 2) 1 :=
  readerPass_f4_miss p s (by norm_num) fun k hk => by omega

/-- Settles O33: the checks, then the nibbles that the pass loads, the odd last nibble and the bytes outside them. -/
theorem read4LoadsTheRectangle : Obligations.Read4LoadsTheRectangle := by
  intro s
  obtain ⟨herr, hok⟩ := exec_read_spec (i := .read4) (f := .f4) (s := s) rfl
  refine ⟨herr, fun hfits => ⟨_, hok hfits, readerPass_complete_ok _ _ s, ?_⟩⟩
  simp only [State.readByte_complete]
  exact ⟨fun _ hk => readerPass_f4_hit s.readPass s hk,
    readerPass_f4_keepsOddNibble s.readPass s,
    fun _ hmiss => readerPass_f4_missByte s.readPass s hmiss⟩

/-! ### Empty rectangles -/

theorem linearLength_zero (f : Format) : linearLength f 0 = 0 := by
  cases f <;> rfl

/-- An empty rectangle passes the checks whatever the linear offset and LB_SIZE are (R97). -/
theorem State.transferFits_of_empty {s : State} (h : s.pixelCount = 0) (f : Format) (lin : Nat) :
    s.TransferFits f lin := by
  simp [State.TransferFits, h, linearLength_zero]

theorem writerPass_of_empty {p : Pass} (h : p.count = 0) (f : Format) (s : State) : writerPass f p s = s := by
  rw [writerPass_eq, h, List.range_zero, List.foldl_nil]

theorem readerPass_of_empty {p : Pass} (h : p.count = 0) (f : Format) (s : State) : readerPass f p s = s := by
  rw [readerPass_eq, h, List.range_zero, List.foldl_nil]

theorem exec_write_of_empty {i : Instr} {f : Format} {s : State} (h : s.pixelCount = 0)
    (hi : exec i s = writeCommand f s) : exec i s = .next { s with err := .ok } := by
  rw [(exec_write_spec hi).2 (State.transferFits_of_empty h f _), writerPass_of_empty (p := s.writePass) h,
    State.complete_ok]

theorem exec_read_of_empty {i : Instr} {f : Format} {s : State} (h : s.pixelCount = 0)
    (hi : exec i s = readCommand f s) : exec i s = .next { s with err := .ok } := by
  rw [(exec_read_spec hi).2 (State.transferFits_of_empty h f _), readerPass_of_empty (p := s.readPass) h,
    State.complete_ok]

/-- Settles O34: the checks pass and the pass has no pixel. -/
theorem emptyRectangleSucceeds : Obligations.EmptyRectangleSucceeds := by
  intro s hempty i hi
  have h : s.pixelCount = 0 := by
    rcases hempty with h | h <;> simp [State.pixelCount, h]
  simp only [List.mem_cons, List.not_mem_nil, or_false] at hi
  rcases hi with rfl | rfl | rfl | rfl | rfl | rfl
  · exact exec_write_of_empty h (f := .f32) rfl
  · exact exec_read_of_empty h (f := .f32) rfl
  · exact exec_write_of_empty h (f := .f8) rfl
  · exact exec_read_of_empty h (f := .f8) rfl
  · exact exec_write_of_empty h (f := .f4) rfl
  · exact exec_read_of_empty h (f := .f4) rfl

/-! ### What every command leaves unchanged -/

/-- A command's effect reaches RESULT and the two memories alone (R98, R109). -/
theorem commandEffect_frame (i : Instr) (s : State) :
    commandEffect i s = { s with
      result := (commandEffect i s).result
      plane := (commandEffect i s).plane
      linear := (commandEffect i s).linear } := by
  cases i <;> ext1 <;> simp [commandEffect, unswizzlePasses, swizzlePasses]

/-- Only the ADDR commands set RESULT (R98, R109). -/
theorem commandEffect_result {i : Instr} (h : i ∉ [Instr.addr32, .addr8, .addr4]) (s : State) :
    (commandEffect i s).result = s.result := by
  cases i
  case addr32 | addr8 | addr4 => simp at h
  all_goals simp [commandEffect, unswizzlePasses, swizzlePasses]

/-- The ADDR and READ commands keep the plane (R98). -/
theorem commandEffect_plane {i : Instr} (h : i ∈ [Instr.addr32, .addr8, .addr4, .read32, .read8, .read4])
    (s : State) : (commandEffect i s).plane = s.plane := by
  simp only [List.mem_cons, List.not_mem_nil, or_false] at h
  rcases h with rfl | rfl | rfl | rfl | rfl | rfl <;> simp [commandEffect]

/-- The ADDR and WRITE commands keep the linear buffer (R98). -/
theorem commandEffect_linear {i : Instr} (h : i ∈ [Instr.addr32, .addr8, .addr4, .write32, .write8, .write4])
    (s : State) : (commandEffect i s).linear = s.linear := by
  simp only [List.mem_cons, List.not_mem_nil, or_false] at h
  rcases h with rfl | rfl | rfl | rfl | rfl | rfl <;> simp [commandEffect]

/-- Settles O46: a command completes with its effect, which keeps its operands, or with an error and no effect. -/
theorem commandsKeepTheirOperands : Obligations.CommandsKeepTheirOperands := by
  intro i s t ht
  rcases exec_cases i s with h | ⟨e, -, -, h⟩
  · obtain rfl : (commandEffect i s).complete .ok = t := Host.Outcome.next.inj (h.symm.trans ht)
    refine ⟨?_, fun hi => commandEffect_result hi s, fun hi => commandEffect_plane hi s,
      fun hi => commandEffect_linear hi s⟩
    rw [commandEffect_frame i s]
    rfl
  · obtain rfl : s.complete e = t := Host.Outcome.next.inj (h.symm.trans ht)
    exact ⟨rfl, fun _ => rfl, fun _ => rfl, fun _ => rfl⟩

end Sys2Proof.Machine
end

section
/-! PROOFS. The statements of spec/42_orchestrator.md: the checks of UNSWIZZLE and SWIZZLE (R101), the commands they are
made of (R103, R104), what they leave in the plane (R108), and that they are independent of everything but their input
(R105, R107) and inverse to each other (R106). The ideas: both passes are one to one from the nibbles of their linear
array onto the nibbles of the same whole pages, so a writer and then a reader move an input nibble to the output nibble
that is paired with the same plane nibble. -/

namespace Sys2Proof.Machine

/-! ### Whole-page passes -/

/-- A pass over `P` by `Q` whole pages of the plane from byte 0, in a buffer `P` pages wide (R102). -/
structure Pass.WholePages (p : Pass) (f : Format) (P Q : Nat) : Prop where
  base : p.base = 0
  bufw : p.bufw = P
  x0 : p.x0 = 0
  y0 : p.y0 = 0
  w : p.w = P * (geometry f).pageW
  h : p.h = Q * (geometry f).pageH

theorem Pass.addressAt_f32_aligned (p : Pass) (k : Nat) : (p.addressAt .f32 k).offset % 4 = 0 :=
  (addressOf_f32_aligned _ _ _ _).1

namespace Pass.WholePages

variable {p : Pass} {f : Format} {P Q : Nat}

theorem addressAt_eq (h : p.WholePages f P Q) (k : Nat) :
    p.addressAt f k = addressOf f 0 P (k % (P * (geometry f).pageW)) (k / (P * (geometry f).pageW)) := by
  rw [Pass.addressAt, h.base, h.bufw, h.x0, h.y0, h.w, Nat.zero_add, Nat.zero_add]

theorem count_eq (h : p.WholePages f P Q) : p.count = P * (geometry f).pageW * (Q * (geometry f).pageH) := by
  rw [Pass.count, h.w, h.h]

theorem offset_lt (h : p.WholePages f P Q) {k : Nat} (hk : k < p.count) :
    (p.addressAt f k).offset < P * Q * 8192 := by
  simpa [h.base] using wholePages_offset_lt h.bufw h.x0 h.y0 h.w h.h hk

/-- No two pixels of the pass share an address (R100). -/
theorem addressAt_injOn (h : p.WholePages f P Q) {j k : Nat} (hk : k < p.count)
    (he : p.addressAt f j = p.addressAt f k) : j = k := by
  rw [h.count_eq] at hk
  have hw : 0 < P * (geometry f).pageW := Nat.pos_of_mul_pos_right (Nat.zero_lt_of_lt hk)
  rw [h.addressAt_eq, h.addressAt_eq] at he
  obtain ⟨hx, hy⟩ := pixel_eq_of_addressOf_eq (Nat.mod_lt k hw) (Nat.mod_lt j hw) he
  exact Nat.ext_div_modEq hy hx

/-- Every place of the pages is the address of a pixel of the pass (R100). -/
theorem exists_addressAt (h : p.WholePages f P Q) {off half : Nat} (hoff : off < P * Q * 8192)
    (hplace : isPlace f off half) : ∃ k < p.count, p.addressAt f k = { offset := off, half := half } := by
  obtain ⟨x, y, hx, hy, ha⟩ := exists_pixel_of_place f 0 hoff hplace
  have hw : 0 < P * (geometry f).pageW := Nat.zero_lt_of_lt hx
  refine ⟨y * (P * (geometry f).pageW) + x, ?_, ?_⟩
  · rw [h.count_eq, Nat.mul_comm (P * _)]
    exact page_mul_add_lt hy hx
  · rw [h.addressAt_eq, Nat.mul_add_mod_of_lt hx, Nat.mul_comm, Nat.mul_add_div hw, Nat.div_eq_of_lt hx,
      Nat.add_zero, ha, Nat.mul_zero, Nat.zero_add]

/-- A format with one sample per byte or word tells two pixels apart by their offsets. -/
theorem offset_injOn (h : p.WholePages f P Q) (hf : f ≠ .f4) {j k : Nat} (hk : k < p.count)
    (he : (p.addressAt f j).offset = (p.addressAt f k).offset) : j = k := by
  have hhalf : ∀ i, (p.addressAt f i).half = 0 := by
    intro i
    cases f
    case f32 => rfl
    case f8 => rfl
    case f4 => exact absurd rfl hf
  exact h.addressAt_injOn hk (PixelAddr.ext he (by rw [hhalf, hhalf]))

/-! ### What a writer leaves in the pages -/

theorem writerPass_f32 (h : p.WholePages .f32 P Q) (s : State) {k i : Nat} (hk : k < p.count) (hi : i < 4) :
    (writerPass .f32 p s).readByte .plane ((p.addressAt .f32 k).offset + i) =
      s.readByte .linear (p.lin + 4 * k + i) :=
  writerPass_f32_hit p s hk hi fun _ hkj _ he => hkj.ne' (h.offset_injOn (by decide) hk he)

theorem writerPass_f8 (h : p.WholePages .f8 P Q) (s : State) {k : Nat} (hk : k < p.count) :
    (writerPass .f8 p s).readByte .plane (p.addressAt .f8 k).offset = s.readByte .linear (p.lin + k) :=
  writerPass_f8_hit p s hk fun _ hkj _ he => hkj.ne' (h.offset_injOn (by decide) hk he)

theorem writerPass_f4 (h : p.WholePages .f4 P Q) (s : State) {k : Nat} (hk : k < p.count) :
    (writerPass .f4 p s).readNibble .plane (p.addressAt .f4 k).offset (p.addressAt .f4 k).half =
      s.readNibble .linear (p.lin + k / 2) (k % 2) :=
  writerPass_f4_hit p s hk fun _ hkj _ he => hkj.ne' (h.addressAt_injOn hk he)

/-- A writer over whole pages leaves every plane byte above them (R108). -/
theorem writerPass_above (h : p.WholePages f P Q) (s : State) {a : Nat} (ha : P * Q * 8192 ≤ a) :
    (writerPass f p s).readByte .plane a = s.readByte .plane a := by
  have hlt : ∀ k < p.count, (p.addressAt f k).offset < a := fun k hk => (h.offset_lt hk).trans_le ha
  cases f
  case f32 =>
    refine writerPass_f32_miss p s fun k hk => .inr ?_
    have haligned := p.addressAt_f32_aligned k
    have hoff := h.offset_lt hk
    omega
  case f8 => exact writerPass_f8_miss p s fun k hk => (hlt k hk).ne
  case f4 => exact writerPass_f4_missByte p s fun k hk => (hlt k hk).ne

end Pass.WholePages

/-! ### Nibbles, the common unit of the three formats -/

/-- The nibbles of a pixel (R10). -/
def pixelNibbles : Format → Nat
  | .f32 => 8
  | .f8 => 2
  | .f4 => 1

/-- Nibble number `m` of a memory: half `m % 2` of byte `m / 2` (R94). -/
def State.nibbleAt (s : State) (sp : Space) (m : Nat) : Nibble := s.readNibble sp (m / 2) (m % 2)

/-- The plane nibble that a pass pairs with nibble `m` of its linear array. -/
def Pass.planeNibble (p : Pass) (f : Format) (m : Nat) : Nat :=
  2 * (p.addressAt f (m / pixelNibbles f)).offset + (p.addressAt f (m / pixelNibbles f)).half + m % pixelNibbles f

theorem State.nibbleAt_eq (s : State) (sp : Space) {m a h : Nat} (hh : h < 2) (hm : m = 2 * a + h) :
    s.nibbleAt sp m = getNibble (s.readByte sp a) h := by
  have ha : m / 2 = a := by omega
  have hr : m % 2 = h := by omega
  rw [State.nibbleAt, ha, hr, State.readNibble]

theorem Pass.planeNibble_f32 (p : Pass) (m : Nat) :
    p.planeNibble .f32 m = 2 * ((p.addressAt .f32 (m / 8)).offset + m % 8 / 2) + m % 2 := by
  have hhalf : (p.addressAt .f32 (m / 8)).half = 0 := rfl
  simp only [Pass.planeNibble, pixelNibbles, hhalf]
  omega

theorem Pass.planeNibble_f8 (p : Pass) (m : Nat) :
    p.planeNibble .f8 m = 2 * (p.addressAt .f8 (m / 2)).offset + m % 2 := rfl

theorem Pass.planeNibble_f4 (p : Pass) (m : Nat) :
    p.planeNibble .f4 m = 2 * (p.addressAt .f4 m).offset + (p.addressAt .f4 m).half := by
  simp only [Pass.planeNibble, pixelNibbles, Nat.div_one, Nat.mod_one, Nat.add_zero]

/-- Equal nibbles make equal bytes. -/
theorem readByte_eq_of_nibbleAt_eq {s t : State} {sp : Space} {a b n : Nat}
    (h : ∀ m < 2 * n, t.nibbleAt sp (2 * b + m) = s.nibbleAt sp (2 * a + m)) {i : Nat} (hi : i < n) :
    t.readByte sp (b + i) = s.readByte sp (a + i) := by
  have hhalf : ∀ r < 2, getNibble (t.readByte sp (b + i)) r = getNibble (s.readByte sp (a + i)) r := by
    intro r hr
    rw [← t.nibbleAt_eq sp hr (m := 2 * b + (2 * i + r)) (by omega),
      ← s.nibbleAt_eq sp hr (m := 2 * a + (2 * i + r)) (by omega)]
    exact h _ (by omega)
  exact byte_eq_of_nibbles (hhalf 0 (by norm_num)) (hhalf 1 (by norm_num))

theorem nibbleAt_congr {s t : State} {sp : Space} {a b n : Nat}
    (h : ∀ i < n, t.readByte sp (b + i) = s.readByte sp (a + i)) {m : Nat} (hm : m < 2 * n) :
    t.nibbleAt sp (2 * b + m) = s.nibbleAt sp (2 * a + m) := by
  have hr : m % 2 < 2 := Nat.mod_lt m (by norm_num)
  rw [t.nibbleAt_eq sp (a := b + m / 2) hr (by omega), s.nibbleAt_eq sp (a := a + m / 2) hr (by omega),
    h _ (by omega)]

/-- A reader fills each nibble of its linear array with the plane nibble paired with it (R91, R93, R96). -/
theorem readerPass_nibbleAt (f : Format) (p : Pass) (s : State) {m : Nat} (hm : m < pixelNibbles f * p.count) :
    (readerPass f p s).nibbleAt .linear (2 * p.lin + m) = s.nibbleAt .plane (p.planeNibble f m) := by
  have hr : m % 2 < 2 := Nat.mod_lt m (by norm_num)
  cases f
  case f32 =>
    have hk : m / 8 < p.count := Nat.div_lt_of_lt_mul hm
    rw [State.nibbleAt_eq _ _ (a := p.lin + 4 * (m / 8) + m % 8 / 2) hr (by omega),
      State.nibbleAt_eq _ _ hr (p.planeNibble_f32 m),
      readerPass_f32_hit p s hk (by omega)]
  case f8 =>
    have hk : m / 2 < p.count := Nat.div_lt_of_lt_mul hm
    rw [State.nibbleAt_eq _ _ (a := p.lin + m / 2) hr (by omega), State.nibbleAt_eq _ _ hr (p.planeNibble_f8 m),
      readerPass_f8_hit p s hk]
  case f4 =>
    rw [State.nibbleAt_eq _ _ (a := p.lin + m / 2) hr (by omega),
      State.nibbleAt_eq _ _ (p.addressAt_half_lt .f4 m) (p.planeNibble_f4 m)]
    exact readerPass_f4_hit p s (by simpa [pixelNibbles] using hm)

namespace Pass.WholePages

variable {p p' q q' : Pass} {f g : Format} {P Q : Nat}

/-- A writer stores each nibble of its linear array in the plane nibble paired with it (R90, R92, R95). -/
theorem writerPass_nibbleAt (h : p.WholePages f P Q) (s : State) {m : Nat} (hm : m < pixelNibbles f * p.count) :
    (writerPass f p s).nibbleAt .plane (p.planeNibble f m) = s.nibbleAt .linear (2 * p.lin + m) := by
  have hr : m % 2 < 2 := Nat.mod_lt m (by norm_num)
  cases f
  case f32 =>
    have hk : m / 8 < p.count := Nat.div_lt_of_lt_mul hm
    rw [State.nibbleAt_eq _ _ hr (p.planeNibble_f32 m),
      State.nibbleAt_eq _ _ (a := p.lin + 4 * (m / 8) + m % 8 / 2) hr (by omega),
      h.writerPass_f32 s hk (by omega)]
  case f8 =>
    have hk : m / 2 < p.count := Nat.div_lt_of_lt_mul hm
    rw [State.nibbleAt_eq _ _ hr (p.planeNibble_f8 m), State.nibbleAt_eq _ _ (a := p.lin + m / 2) hr (by omega),
      h.writerPass_f8 s hk]
  case f4 =>
    rw [State.nibbleAt_eq _ _ (p.addressAt_half_lt .f4 m) (p.planeNibble_f4 m),
      State.nibbleAt_eq _ _ (a := p.lin + m / 2) hr (by omega)]
    exact h.writerPass_f4 s (by simpa [pixelNibbles] using hm)

/-- The pixels of the pass are all the nibbles of its pages. -/
theorem nibble_count (h : p.WholePages f P Q) : pixelNibbles f * p.count = 2 * (P * Q * 8192) := by
  rw [h.count_eq]
  cases f <;> simp only [pixelNibbles, geometry] <;> ring

theorem planeNibble_congr (h : p.WholePages f P Q) (h' : p'.WholePages f P Q) (m : Nat) :
    p'.planeNibble f m = p.planeNibble f m := by
  simp only [Pass.planeNibble, h.addressAt_eq, h'.addressAt_eq]

theorem planeNibble_lt (h : p.WholePages f P Q) {m : Nat} (hm : m < 2 * (P * Q * 8192)) :
    p.planeNibble f m < 2 * (P * Q * 8192) := by
  rw [← h.nibble_count] at hm
  have hoff := h.offset_lt (Nat.div_lt_of_lt_mul hm)
  have hhalf := p.addressAt_half_lt f (m / pixelNibbles f)
  cases f
  case f32 =>
    have haligned := p.addressAt_f32_aligned (m / 8)
    rw [planeNibble_f32]
    simp only [pixelNibbles] at hoff
    omega
  case f8 =>
    rw [planeNibble_f8]
    simp only [pixelNibbles] at hoff
    omega
  case f4 =>
    rw [planeNibble_f4]
    simp only [pixelNibbles, Nat.div_one] at hoff hhalf
    omega

/-- Every nibble of the pages is paired with a nibble of the linear array (R100). -/
theorem exists_planeNibble (h : p.WholePages f P Q) {r : Nat} (hr : r < 2 * (P * Q * 8192)) :
    ∃ m < 2 * (P * Q * 8192), p.planeNibble f m = r := by
  rw [← h.nibble_count]
  cases f
  case f32 =>
    obtain ⟨k, hk, ha⟩ := h.exists_addressAt (off := r / 8 * 4) (half := 0) (by omega) ⟨by omega, rfl⟩
    refine ⟨8 * k + r % 8, by simp only [pixelNibbles]; omega, ?_⟩
    have hdiv : (8 * k + r % 8) / 8 = k := by omega
    rw [planeNibble_f32, hdiv, ha]
    dsimp only
    omega
  case f8 =>
    obtain ⟨k, hk, ha⟩ := h.exists_addressAt (off := r / 2) (half := 0) (by omega) rfl
    refine ⟨2 * k + r % 2, by simp only [pixelNibbles]; omega, ?_⟩
    have hdiv : (2 * k + r % 2) / 2 = k := by omega
    rw [planeNibble_f8, hdiv, ha]
    dsimp only
    omega
  case f4 =>
    obtain ⟨k, hk, ha⟩ := h.exists_addressAt (off := r / 2) (half := r % 2) (by omega) (Nat.mod_lt r (by norm_num))
    refine ⟨k, by simp only [pixelNibbles]; omega, ?_⟩
    rw [planeNibble_f4, ha]
    dsimp only
    omega

/-! ### A writer, then a reader of the same pages -/

/-- The two passes move an input nibble to the output nibble that shares its plane nibble. -/
theorem passes_nibbleAt (hp : p.WholePages f P Q) (hq : q.WholePages g P Q) (s : State) {m m' : Nat}
    (hm : m < 2 * (P * Q * 8192)) (hm' : m' < 2 * (P * Q * 8192)) (h : p.planeNibble f m' = q.planeNibble g m) :
    (readerPass g q (writerPass f p s)).nibbleAt .linear (2 * q.lin + m) =
      s.nibbleAt .linear (2 * p.lin + m') := by
  rw [readerPass_nibbleAt g q _ (by rwa [hq.nibble_count]), ← h,
    hp.writerPass_nibbleAt s (by rwa [hp.nibble_count])]

/-- The output depends on the input bytes alone (R105, R107). -/
theorem passes_congr (hp : p.WholePages f P Q) (hp' : p'.WholePages f P Q) (hq : q.WholePages g P Q)
    (hq' : q'.WholePages g P Q) {s s' : State}
    (h : ∀ a < P * Q * 8192, s'.readByte .linear (p'.lin + a) = s.readByte .linear (p.lin + a)) :
    ∀ a < P * Q * 8192, (readerPass g q' (writerPass f p' s')).readByte .linear (q'.lin + a) =
      (readerPass g q (writerPass f p s)).readByte .linear (q.lin + a) := by
  refine fun a => readByte_eq_of_nibbleAt_eq fun m hm => ?_
  obtain ⟨m', hm', hshared⟩ := hp.exists_planeNibble (hq.planeNibble_lt hm)
  rw [hp'.passes_nibbleAt hq' s' hm hm' (by rw [hp.planeNibble_congr hp', hq.planeNibble_congr hq', hshared]),
    hp.passes_nibbleAt hq s hm hm' hshared]
  exact nibbleAt_congr h hm'

/-- Exchanging the two formats undoes the passes (R106). -/
theorem passes_inverse (hp : p.WholePages f P Q) (hp' : p'.WholePages f P Q) (hq : q.WholePages g P Q)
    (hq' : q'.WholePages g P Q) {s t : State}
    (h : ∀ a < P * Q * 8192, t.readByte .linear (q'.lin + a) =
      (readerPass g q (writerPass f p s)).readByte .linear (q.lin + a)) :
    ∀ a < P * Q * 8192, (readerPass f p' (writerPass g q' t)).readByte .linear (p'.lin + a) =
      s.readByte .linear (p.lin + a) := by
  refine fun a => readByte_eq_of_nibbleAt_eq fun m hm => ?_
  obtain ⟨m', hm', hshared⟩ := hq.exists_planeNibble (hp.planeNibble_lt hm)
  rw [hq'.passes_nibbleAt hp' t hm hm' (by rw [hp.planeNibble_congr hp', hq.planeNibble_congr hq', hshared]),
    nibbleAt_congr h hm', hp.passes_nibbleAt hq s hm' hm hshared.symm]

end Pass.WholePages

/-! ### The passes of the orchestrator -/

/-- Legal sizes make both passes whole-page passes over the same `n` bytes of the plane (R102). -/
theorem State.SizesLegal.wholePages {s : State} (h : s.SizesLegal) :
    ∃ P Q, s.streamLength = P * Q * 8192 ∧
      ∀ lin, (s.scaledPass lin).WholePages .f32 P Q ∧ (s.fullPass lin).WholePages s.depthFormat P Q := by
  obtain ⟨P, Q, hP, hn, hscaled, hfull⟩ := State.sizesLegal_pages h
  exact ⟨P, Q, hn, fun lin => ⟨⟨rfl, hP, rfl, rfl, (hscaled lin).1, (hscaled lin).2⟩,
    ⟨rfl, hP, rfl, rfl, (hfull lin).1, (hfull lin).2⟩⟩⟩

theorem State.scaledOffset_eq (s : State) (lin j : Nat) :
    s.scaledOffset j = ((s.scaledPass lin).addressAt .f32 j).offset := by
  simp [State.scaledOffset, Pass.addressAt, State.scaledPass]

theorem State.imageAddress_eq (s : State) (lin k : Nat) :
    s.imageAddress k = (s.fullPass lin).addressAt s.depthFormat k := by
  simp [State.imageAddress, Pass.addressAt, State.fullPass]

theorem State.depthFormat_of_eq {s : State} (h : s.bpp.toNat = 8) : s.depthFormat = .f8 := if_pos h

theorem State.depthFormat_of_ne {s : State} (h : s.bpp.toNat ≠ 8) : s.depthFormat = .f4 := if_neg h

/-! ### The checks -/

/-- A command with the two outcomes of R101 ends with the error of its checks, or has its effect. -/
theorem exec_orchestrator_spec {i : Instr} {s u : State}
    (h : (s.OrchestratorFits ∧ exec i s = .next (u.complete .ok)) ∨
      (s.orchestratorCheck ≠ .ok ∧ exec i s = .next (s.complete s.orchestratorCheck))) :
    s.OrchestratorErrors i ∧ (s.OrchestratorFits → exec i s = .next (u.complete .ok)) := by
  rcases h with ⟨hfits, he⟩ | ⟨hne, he⟩
  · refine ⟨⟨fun hill => absurd hfits.sizes hill, fun _ hn => absurd hfits.inPlane hn.not_ge,
      fun _ _ hlin => ?_⟩, fun _ => he⟩
    exact absurd hlin (not_or.mpr ⟨hfits.source.not_gt, hfits.destination.not_gt⟩)
  · refine ⟨?_, fun hfits => absurd ((State.orchestratorCheck_ok_iff s).mpr hfits) hne⟩
    rw [s.complete_eq_failedWith hne] at he
    rcases s.orchestratorCheck_cases with ⟨hill, hc⟩ | ⟨hs, hn, hc⟩ | ⟨hs, hn, hlin, hc⟩ | ⟨-, hc⟩
    · rw [hc] at he
      exact ⟨fun _ => he, fun hs => absurd hs hill, fun hs => absurd hs hill⟩
    · rw [hc] at he
      exact ⟨fun hill => absurd hs hill, fun _ _ => he, fun _ hle => absurd hn hle.not_gt⟩
    · rw [hc] at he
      exact ⟨fun hill => absurd hs hill, fun _ hgt => absurd hn hgt.not_ge, fun _ _ _ => he⟩
    · exact absurd hc hne

theorem exec_unswizzle_spec (s : State) : s.OrchestratorErrors .unswizzle ∧
    (s.OrchestratorFits → exec .unswizzle s = .next ((unswizzlePasses s).complete .ok)) :=
  exec_orchestrator_spec (execUnswizzle_cases s)

theorem exec_swizzle_spec (s : State) : s.OrchestratorErrors .swizzle ∧
    (s.OrchestratorFits → exec .swizzle s = .next ((swizzlePasses s).complete .ok)) :=
  exec_orchestrator_spec (execSwizzle_cases s)

/-- With `n` above 2^22 a pixel of the scaled rectangle is at the first byte past the plane (R101). -/
theorem State.SizesLegal.planeSize_lt_iff {s : State} (h : s.SizesLegal) : 4194304 < s.streamLength ↔
    (∃ j < s.rw.toNat / 2 * s.scaledHeight, 4194304 ≤ s.scaledOffset j) ∨
      ∃ k < s.rw.toNat * s.rh.toNat, 4194304 ≤ (s.imageAddress k).offset := by
  obtain ⟨P, Q, hn, hpages⟩ := h.wholePages
  obtain ⟨hscaled, hfull⟩ := hpages 0
  simp only [s.scaledOffset_eq 0, s.imageAddress_eq 0]
  constructor
  · intro hlt
    obtain ⟨j, hj, ha⟩ := hscaled.exists_addressAt (off := 4194304) (half := 0) (hn ▸ hlt) ⟨rfl, rfl⟩
    exact .inl ⟨j, hj, by rw [ha]⟩
  · rw [hn]
    rintro (⟨j, hj, hge⟩ | ⟨k, hk, hge⟩)
    · exact hge.trans_lt (hscaled.offset_lt hj)
    · exact hge.trans_lt (hfull.offset_lt hk)

/-- Settles O36: the outcomes of the checks, and the bounds of the two whole-page passes. -/
theorem orchestratorChecksInOrder : Obligations.OrchestratorChecksInOrder := by
  intro s
  obtain ⟨huerr, huok⟩ := exec_unswizzle_spec s
  obtain ⟨hserr, hsok⟩ := exec_swizzle_spec s
  exact ⟨huerr, hserr, rfl, State.SizesLegal.planeSize_lt_iff, fun hfits =>
    ⟨_, _, huok hfits, rfl, hsok hfits, rfl⟩⟩

/-! ### The refinement to WRITE and READ commands -/

theorem State.OrchestratorFits.scaled_inLinear {s : State} (h : s.OrchestratorFits) {lin : Nat}
    (hlin : lin + s.streamLength ≤ s.lbSize) : (s.scaledPass lin).inLinear .f32 s.lbSize = true :=
  (Pass.inLinear_iff _ _ _).mpr (.inr (by rw [(h.lengths lin).1]; exact hlin))

theorem State.OrchestratorFits.full_inLinear {s : State} (h : s.OrchestratorFits) {lin : Nat}
    (hlin : lin + s.streamLength ≤ s.lbSize) : (s.fullPass lin).inLinear s.depthFormat s.lbSize = true :=
  (Pass.inLinear_iff _ _ _).mpr (.inr (by rw [(h.lengths lin).2]; exact hlin))

/-- A WRITE command whose pass is in range runs it (R86). -/
theorem writeCommand_of_inRange {f : Format} {p : Pass} {a : State} (hp : a.writePass = p)
    (hplane : p.inPlane f = true) (hlinear : p.inLinear f a.lbSize = true) :
    writeCommand f a = .next ((writerPass f p a).complete .ok) := by
  rw [writeCommand, hp, (p.check_ok_iff f a.lbSize).mpr ⟨hplane, hlinear⟩]

/-- A READ command whose pass is in range runs it (R86). -/
theorem readCommand_of_inRange {f : Format} {p : Pass} {a : State} (hp : a.readPass = p)
    (hplane : p.inPlane f = true) (hlinear : p.inLinear f a.lbSize = true) :
    readCommand f a = .next ((readerPass f p a).complete .ok) := by
  rw [readCommand, hp, (p.check_ok_iff f a.lbSize).mpr ⟨hplane, hlinear⟩]

theorem exec_write_depth (s a : State) :
    exec (if s.bpp.toNat = 8 then .write8 else .write4) a = writeCommand s.depthFormat a := by
  unfold State.depthFormat
  split <;> rfl

theorem exec_read_depth (s a : State) :
    exec (if s.bpp.toNat = 8 then .read8 else .read4) a = readCommand s.depthFormat a := by
  unfold State.depthFormat
  split <;> rfl

/-- Two passes keep everything but the memories that another run of them on the same memories gives. -/
theorem passes_complete_ok {f g : Format} {p q : Pass} {s v : State}
    (h : SameMemory (readerPass g q (writerPass f p s)) v) :
    (readerPass g q (writerPass f p s)).complete .ok =
      { s with plane := v.plane, linear := v.linear, err := .ok } := by
  ext1 <;> simp [h.plane, h.linear]

/-- Completing the first pass as a command, and setting registers before the second, leaves the same memories. -/
theorem SameMemory.passes {s a b : State} {f : Format} {p : Pass}
    (hb : SameMemory ((Machine.writerPass f p a).complete .ok) b) (ha : SameMemory s a) (g : Format) (q : Pass) :
    SameMemory (Machine.readerPass g q (Machine.writerPass f p s)) ((Machine.readerPass g q b).complete .ok) := by
  have hw := ha.writerPass f p
  have hr : SameMemory (Machine.writerPass f p s) b :=
    ⟨hb.plane.trans hw.plane, hb.linear.trans hw.linear, hb.plane0.trans hw.plane0, hb.lb0.trans hw.lb0⟩
  obtain ⟨hplane, hlinear, hplane0, hlb0⟩ := hr.readerPass g q
  exact ⟨hplane, hlinear, hplane0, hlb0⟩

/-- A register holds a fraction of a size (R102). -/
theorem toNat_ofNat_div (x : BitVec 16) (d : Nat) : (BitVec.ofNat 16 (x.toNat / d)).toNat = x.toNat / d :=
  Nat.mod_eq_of_lt ((Nat.div_le_self _ _).trans_lt x.isLt)

theorem State.toNat_ofNat_scaledHeight (s : State) :
    (BitVec.ofNat 16 s.scaledHeight).toNat = s.scaledHeight := by
  unfold State.scaledHeight
  split <;> exact toNat_ofNat_div _ _

/-- The registers of R102 for the scaled rectangle. -/
theorem State.rectPass_eq_scaledPass {s a : State} (hbase : a.base = 0)
    (hbufw : a.bufw = BitVec.ofNat 16 (s.rw.toNat / 128)) (hrx : a.rx = 0) (hry : a.ry = 0)
    (hrw : a.rw = BitVec.ofNat 16 (s.rw.toNat / 2)) (hrh : a.rh = BitVec.ofNat 16 s.scaledHeight) {l lin : Nat}
    (hlin : l = lin) : a.rectPass l = s.scaledPass lin := by
  rw [hlin, State.rectPass, State.scaledPass, hbase, hbufw, hrx, hry, hrw, hrh, toNat_ofNat_div, toNat_ofNat_div,
    s.toNat_ofNat_scaledHeight]
  rfl

/-- The registers of R102 for the full rectangle. -/
theorem State.rectPass_eq_fullPass {s a : State} (hbase : a.base = 0)
    (hbufw : a.bufw = BitVec.ofNat 16 (s.rw.toNat / 128)) (hrx : a.rx = 0) (hry : a.ry = 0) (hrw : a.rw = s.rw)
    (hrh : a.rh = s.rh) {l lin : Nat} (hlin : l = lin) : a.rectPass l = s.fullPass lin := by
  rw [hlin, State.rectPass, State.fullPass, hbase, hbufw, hrx, hry, hrw, hrh, toNat_ofNat_div]
  rfl

/-- Settles O37: the two commands have the orchestrator's passes, whose checks hold. -/
theorem unswizzleIsWriteThenRead : Obligations.UnswizzleIsWriteThenRead := by
  intro s
  obtain ⟨herr, hok⟩ := exec_unswizzle_spec s
  refine ⟨herr, fun hfits => ⟨_, _, _,
    writeCommand_of_inRange (p := s.scaledPass s.lsrc.toNat) ?write (hfits.scaled_inPlane _)
      (hfits.scaled_inLinear hfits.source), rfl,
    (exec_read_depth s _).trans (readCommand_of_inRange (p := s.fullPass s.ldst.toNat) ?read (hfits.full_inPlane _)
      ?linear), rfl,
    hok hfits, passes_complete_ok ?memory⟩⟩
  case write => exact State.rectPass_eq_scaledPass rfl rfl rfl rfl rfl rfl rfl
  case read => refine State.rectPass_eq_fullPass ?_ ?_ ?_ ?_ ?_ ?_ ?_ <;> simp
  case linear => simpa using hfits.full_inLinear hfits.destination
  -- `by exact` waits until the goal names the two states.
  case memory => exact SameMemory.passes (by exact ⟨rfl, rfl, rfl, rfl⟩) (by exact ⟨rfl, rfl, rfl, rfl⟩) _ _

/-- Settles O38: the two commands have the orchestrator's passes, whose checks hold. -/
theorem swizzleIsWriteThenRead : Obligations.SwizzleIsWriteThenRead := by
  intro s
  obtain ⟨herr, hok⟩ := exec_swizzle_spec s
  refine ⟨herr, fun hfits => ⟨_, _, _,
    (exec_write_depth s _).trans (writeCommand_of_inRange (p := s.fullPass s.lsrc.toNat) ?write
      (hfits.full_inPlane _) (hfits.full_inLinear hfits.source)), rfl,
    readCommand_of_inRange (p := s.scaledPass s.ldst.toNat) ?read (hfits.scaled_inPlane _) ?linear, rfl,
    hok hfits, passes_complete_ok ?memory⟩⟩
  case write => exact State.rectPass_eq_fullPass rfl rfl rfl rfl rfl rfl rfl
  case read => refine State.rectPass_eq_scaledPass ?_ ?_ ?_ ?_ ?_ ?_ ?_ <;> simp [State.scaledHeight]
  case linear => simpa using hfits.scaled_inLinear hfits.destination
  -- `by exact` waits until the goal names the two states.
  case memory => exact SameMemory.passes (by exact ⟨rfl, rfl, rfl, rfl⟩) (by exact ⟨rfl, rfl, rfl, rfl⟩) _ _

/-! ### The bytes of the plane and of the output -/

theorem eq_of_exec_unswizzle {s t : State} (h : s.OrchestratorFits) (ht : exec .unswizzle s = .next t) :
    t = (unswizzlePasses s).complete .ok :=
  Host.Outcome.next.inj (ht.symm.trans ((exec_unswizzle_spec s).2 h))

theorem readByte_of_unswizzle {s t : State} (h : s.OrchestratorFits) (ht : exec .unswizzle s = .next t) (sp : Space)
    (a : Nat) : t.readByte sp a = (unswizzlePasses s).readByte sp a := by
  rw [eq_of_exec_unswizzle h ht, State.readByte_complete]

theorem eq_of_exec_swizzle {s t : State} (h : s.OrchestratorFits) (ht : exec .swizzle s = .next t) :
    t = (swizzlePasses s).complete .ok :=
  Host.Outcome.next.inj (ht.symm.trans ((exec_swizzle_spec s).2 h))

theorem readByte_of_swizzle {s t : State} (h : s.OrchestratorFits) (ht : exec .swizzle s = .next t) (sp : Space)
    (a : Nat) : t.readByte sp a = (swizzlePasses s).readByte sp a := by
  rw [eq_of_exec_swizzle h ht, State.readByte_complete]

/-- Settles O39: a whole-page writer fills its pages pixel by pixel and leaves the bytes above them. -/
theorem orchestratorPlaneSideEffect : Obligations.OrchestratorPlaneSideEffect := by
  intro s t u hfits ht hu
  obtain ⟨P, Q, hn, hpages⟩ := hfits.sizes.wholePages
  obtain ⟨hscaled, hfull⟩ := hpages s.lsrc.toNat
  simp only [readByte_of_unswizzle hfits ht, readByte_of_swizzle hfits hu, unswizzlePasses, swizzlePasses,
    readerPass_readByte_plane, hn, s.scaledOffset_eq s.lsrc.toNat, s.imageAddress_eq s.lsrc.toNat]
  refine ⟨fun j hj i hi => hscaled.writerPass_f32 s hj hi, fun k hk => ?_,
    fun a ha => ⟨hscaled.writerPass_above s ha, hfull.writerPass_above s ha⟩⟩
  split
  case isTrue h8 =>
    rw [State.depthFormat_of_eq h8] at hfull ⊢
    exact hfull.writerPass_f8 s hk
  case isFalse h4 =>
    rw [State.depthFormat_of_ne h4] at hfull ⊢
    exact hfull.writerPass_f4 s hk

/-- Two states with the sizes and depth of one image. -/
structure SameImage (s v : State) : Prop where
  rw : v.rw = s.rw
  rh : v.rh = s.rh
  bpp : v.bpp = s.bpp

namespace SameImage

variable {s v : State}

/-- No command changes the sizes, the depth or LB_SIZE (R109). -/
theorem of_exec {i : Instr} (h : exec i s = .next v) : SameImage s v ∧ v.lbSize = s.lbSize := by
  obtain ⟨hframe, -⟩ := commandsKeepTheirOperands i s v h
  exact ⟨⟨by rw [hframe], by rw [hframe], by rw [hframe]⟩, by rw [hframe]⟩

theorem depthFormat (h : SameImage s v) : v.depthFormat = s.depthFormat := by
  simp only [State.depthFormat, h.bpp]

theorem scaledPass (h : SameImage s v) (lin : Nat) : v.scaledPass lin = s.scaledPass lin := by
  simp only [State.scaledPass, h.rw, h.rh, h.bpp]

theorem fullPass (h : SameImage s v) (lin : Nat) : v.fullPass lin = s.fullPass lin := by
  simp only [State.fullPass, h.rw, h.rh]

theorem unswizzlePasses (h : SameImage s v) : unswizzlePasses v =
    readerPass s.depthFormat (s.fullPass v.ldst.toNat) (writerPass .f32 (s.scaledPass v.lsrc.toNat) v) := by
  rw [Machine.unswizzlePasses, h.depthFormat, h.scaledPass, h.fullPass]

theorem swizzlePasses (h : SameImage s v) : swizzlePasses v =
    readerPass .f32 (s.scaledPass v.ldst.toNat) (writerPass s.depthFormat (s.fullPass v.lsrc.toNat) v) := by
  rw [Machine.swizzlePasses, h.depthFormat, h.scaledPass, h.fullPass]

theorem orchestratorFits (h : SameImage s v) (hs : s.OrchestratorFits)
    (hsrc : v.lsrc.toNat + s.streamLength ≤ v.lbSize) (hdst : v.ldst.toNat + s.streamLength ≤ v.lbSize) :
    v.OrchestratorFits := by
  have hn : v.streamLength = s.streamLength := by simp only [State.streamLength, h.rw, h.rh, h.bpp]
  refine ⟨?_, hn ▸ hs.inPlane, hn ▸ hsrc, hn ▸ hdst⟩
  simpa only [State.SizesLegal, h.rw, h.rh, h.bpp] using hs.sizes

end SameImage

/-- Settles O42: both commands are two whole-page passes over the same pages. -/
theorem orchestratorOutputDependsOnInputAlone : Obligations.OrchestratorOutputDependsOnInputAlone := by
  intro i s s' t t' hi hfits hfits' hrw hrh hbpp hin ht ht'
  have himage : SameImage s s' := ⟨hrw, hrh, hbpp⟩
  obtain ⟨P, Q, hn, hpages⟩ := hfits.sizes.wholePages
  rw [hn] at hin ⊢
  rcases hi with rfl | rfl
  · simp only [readByte_of_unswizzle hfits ht, readByte_of_unswizzle hfits' ht', himage.unswizzlePasses]
    exact (hpages _).1.passes_congr (hpages _).1 (hpages _).2 (hpages _).2 hin
  · simp only [readByte_of_swizzle hfits ht, readByte_of_swizzle hfits' ht', himage.swizzlePasses]
    exact (hpages _).2.passes_congr (hpages _).2 (hpages _).1 (hpages _).1 hin

/-- Settles O43: the second command's passes are those of the first with the two formats exchanged. -/
theorem swizzleAndUnswizzleAreInverse : Obligations.SwizzleAndUnswizzleAreInverse := by
  intro s t u d i j hij hfits hd ht hu
  obtain ⟨P, Q, hn, hpages⟩ := hfits.sizes.wholePages
  obtain ⟨⟨hrw, hrh, hbpp⟩, hsize⟩ := SameImage.of_exec ht
  have himage : SameImage s { t with lsrc := s.ldst, ldst := d } := ⟨hrw, hrh, hbpp⟩
  have hfits' := himage.orchestratorFits hfits (hfits.destination.trans_eq hsize.symm) (hd.trans_eq hsize.symm)
  rw [hn]
  rcases hij with ⟨rfl, rfl⟩ | ⟨rfl, rfl⟩
  · refine ⟨by rw [eq_of_exec_swizzle hfits' hu]; rfl, ?_⟩
    simp only [readByte_of_swizzle hfits' hu, himage.swizzlePasses]
    exact (hpages _).1.passes_inverse (hpages _).1 (hpages _).2 (hpages _).2
      fun a _ => readByte_of_unswizzle hfits ht .linear _
  · refine ⟨by rw [eq_of_exec_unswizzle hfits' hu]; rfl, ?_⟩
    simp only [readByte_of_unswizzle hfits' hu, himage.unswizzlePasses]
    exact (hpages _).2.passes_inverse (hpages _).2 (hpages _).1 (hpages _).1
      fun a _ => readByte_of_swizzle hfits ht .linear _

end Sys2Proof.Machine
end

section
/-! PROOFS. The statements of spec/60_exceptions.md: every command word completes (R111), a failed one changes STATUS
alone (R120), and STICKY says whether a command of the run has failed (R114). The ideas: a delivery is always the
completion of some state with the STICKY of the state before, no other event but a reset touches STATUS, and a run of
`n + 1` steps is one step and a run of `n`. -/

namespace Sys2Proof.Machine

/-! ### The delivery of a command word -/

theorem State.complete_sticky_iff (s : State) (e : ErrorCode) :
    (s.complete e).sticky = true ↔ s.sticky = true ∨ e ≠ .ok := by
  simp

theorem ErrorCode.code_le (e : ErrorCode) : e.code ≤ 4 := by
  cases e <;> decide

/-- A delivered word completes, with some outcome, a state that still has the STICKY of the state before (R111). -/
theorem hostCommand_completes (w : Word) (s : State) :
    ∃ (u : State) (e : ErrorCode), u.sticky = s.sticky ∧ hostCommand w s = .next (u.complete e) := by
  rcases hostCommand_next w s with ⟨i, -, h⟩ | ⟨e, -, h⟩
  · exact ⟨commandEffect i s, .ok, by rw [commandEffect_frame], h⟩
  · exact ⟨s, e, rfl, h⟩

/-- An error of a delivered word sets STICKY, and nothing clears it (R113). -/
theorem hostCommand_sticky_iff {w : Word} {s t : State} (ht : hostCommand w s = .next t) :
    t.sticky = true ↔ s.sticky = true ∨ t.err ≠ .ok := by
  obtain ⟨u, e, hu, h⟩ := hostCommand_completes w s
  obtain rfl : u.complete e = t := Host.Outcome.next.inj (h.symm.trans ht)
  rw [← hu]
  exact u.complete_sticky_iff e

/-- Settles O44: a delivery is a completion. -/
theorem everyCommandCompletesAndUpdatesStatus : Obligations.EveryCommandCompletesAndUpdatesStatus := by
  intro w s
  obtain ⟨u, e, -, h⟩ := hostCommand_completes w s
  exact ⟨u.complete e, h, e.code_le, hostCommand_sticky_iff h, rfl⟩

/-- Settles O45: a delivery completes with an effect and no error, or with an error and no effect. -/
theorem failedCommandChangesStatusOnly : Obligations.FailedCommandChangesStatusOnly := by
  intro w s t ht herr
  rcases hostCommand_next w s with ⟨i, -, h⟩ | ⟨e, he, h⟩
  · obtain rfl : (commandEffect i s).complete .ok = t := Host.Outcome.next.inj (h.symm.trans ht)
    exact absurd rfl herr
  · obtain rfl : s.complete e = t := Host.Outcome.next.inj (h.symm.trans ht)
    exact s.complete_eq_failedWith he

/-! ### The other steps -/

/-- Two states with the same STATUS, RESULT and plane: what only a command or a reset can change. -/
structure SameResults (s t : State) : Prop where
  err : t.err = s.err
  sticky : t.sticky = s.sticky
  result : t.result = s.result
  plane : t.plane = s.plane
  plane0 : t.plane0 = s.plane0

namespace SameResults

theorem trans {s t u : State} (h : SameResults s t) (h' : SameResults t u) : SameResults s u :=
  ⟨h'.err.trans h.err, h'.sticky.trans h.sticky, h'.result.trans h.result, h'.plane.trans h.plane,
    h'.plane0.trans h.plane0⟩

theorem of_nextEvent (s : State) : SameResults s s.nextEvent.2 := by
  rw [s.nextEvent_frame]
  exact ⟨rfl, rfl, rfl, rfl, rfl⟩

theorem of_storeReg (s : State) (r : RegName) (v : Word) : SameResults s (s.storeReg r v) := by
  rw [s.storeReg_frame]
  exact ⟨rfl, rfl, rfl, rfl, rfl⟩

theorem of_returnTo (s : State) (h : Nat) (x : Seen) : SameResults s (s.returnTo h x) := by
  constructor <;> simp

theorem of_writeBytes_linear (s : State) (a : Nat) (vs : List Byte) :
    SameResults s (s.writeBytes .linear a vs) := by
  constructor <;> simp

/-- An event that is neither a write to CMD nor a reset keeps the results of the engine (R16, R23, R25). -/
theorem of_perform {h : Nat} {e : HostEvent} {s t : State} (ht : perform h e s = .next t)
    (hcmd : ∀ w, e ≠ .regWrite 32 0 w) (hreset : ∀ p, e ≠ .reset p) : SameResults s t := by
  have eq_of_next {u : State} (hu : perform h e s = .next u) : u = t := Host.Outcome.next.inj (hu.symm.trans ht)
  rcases perform_cases h e s with ⟨w, he, -⟩ | ⟨_, v, r, -, -, -, hu⟩ | ⟨_, _, -, -, hu⟩ | ⟨_, -, hu⟩ |
    ⟨_, _, -, -, hu⟩ | ⟨_, _, -, hu⟩ | ⟨p, he, -⟩ | ⟨-, ⟨_, _, hu⟩ | ⟨_, _, hu⟩⟩
  · exact absurd he (hcmd w)
  · exact eq_of_next hu ▸ of_storeReg s r v
  · exact eq_of_next hu ▸ ⟨rfl, rfl, rfl, rfl, rfl⟩
  · exact eq_of_next hu ▸ of_returnTo s h _
  · exact eq_of_next hu ▸ of_writeBytes_linear s _ _
  · exact eq_of_next hu ▸ of_returnTo s h _
  · exact absurd he (hreset p)
  all_goals exact nomatch hu.symm.trans ht

/-- A step that delivers neither a command word nor a reset keeps the results of the engine. -/
theorem of_step {s t : State} (ht : step s = .next t) (hcmd : s.commandDelivered = none)
    (hreset : s.resetDelivered = false) : SameResults s t := by
  rcases step_cases s with ⟨-, hs⟩ | ⟨h, e, hn, hs⟩
  · obtain rfl : s.nextEvent.2 = t := Host.Outcome.next.inj (hs.symm.trans ht)
    exact of_nextEvent s
  · refine (of_nextEvent s).trans (of_perform (hs.symm.trans ht) ?_ ?_)
    · rintro w rfl
      simp [State.commandDelivered, hn] at hcmd
    · rintro p rfl
      simp [State.resetDelivered, hn] at hreset

end SameResults

/-! ### STICKY along a run -/

/-- Without a reset, a step leaves STICKY set exactly when it was set or the step delivers a failing command. -/
theorem step_sticky_iff {s t : State} (ht : step s = .next t) (hreset : s.resetDelivered = false) :
    t.sticky = true ↔ s.sticky = true ∨ (s.commandDelivered.isSome ∧ t.err ≠ .ok) := by
  cases hcmd : s.commandDelivered with
  | none => simp [(SameResults.of_step ht hcmd hreset).sticky]
  | some w =>
    have hw := hostCommand_sticky_iff ((step_of_commandDelivered hcmd).symm.trans ht)
    simpa [(SameResults.of_nextEvent s).sticky] using hw

/-- Step `m` of the run from `s` delivers a command word and ends with an error. -/
def CommandFailsAt (s : State) (m : Nat) : Prop :=
  ∃ u v : State, core.run m s = .next u ∧ u.commandDelivered.isSome ∧ step u = .next v ∧ v.err ≠ .ok

theorem commandFailsAt_zero {s t : State} (ht : step s = .next t) :
    CommandFailsAt s 0 ↔ s.commandDelivered.isSome ∧ t.err ≠ .ok := by
  constructor
  · rintro ⟨u, v, hu, hcmd, hv, herr⟩
    obtain rfl : s = u := Host.Outcome.next.inj hu
    obtain rfl : t = v := Host.Outcome.next.inj (ht.symm.trans hv)
    exact ⟨hcmd, herr⟩
  · rintro ⟨hcmd, herr⟩
    exact ⟨s, t, rfl, hcmd, ht, herr⟩

theorem commandFailsAt_succ {s t : State} (ht : step s = .next t) (m : Nat) :
    CommandFailsAt s (m + 1) ↔ CommandFailsAt t m := by
  unfold CommandFailsAt
  rw [run_succ core ht]

/-- Without a reset, a run ends with STICKY set exactly when it started so or one of its steps fails a command. -/
theorem run_sticky_iff {n : Nat} {s t : State} (ht : core.run n s = .next t)
    (hreset : ∀ m < n, ∀ u, core.run m s = .next u → State.resetDelivered u = false) :
    t.sticky = true ↔ s.sticky = true ∨ ∃ m < n, CommandFailsAt s m := by
  induction n generalizing s with
  | zero =>
    obtain rfl : s = t := Host.Outcome.next.inj ht
    simp
  | succ n ih =>
    obtain ⟨s', hs, hrun⟩ := run_succ_cases core ht
    have hrest : ∀ m < n, ∀ u, core.run m s' = .next u → State.resetDelivered u = false := fun m hm u hu =>
      hreset (m + 1) (Nat.succ_lt_succ hm) u ((run_succ core hs).trans hu)
    rw [ih hrun hrest, step_sticky_iff hs (hreset 0 n.succ_pos s rfl), Nat.exists_lt_succ_left,
      commandFailsAt_zero hs, or_assoc]
    simp only [commandFailsAt_succ hs]

/-- Settles O48: the run starts with STICKY 0. -/
theorem stickyExactlyWhenACommandFailed : Obligations.StickyExactlyWhenACommandFailed := by
  intro n s t hs ht hreset
  simpa [hs, CommandFailsAt] using run_sticky_iff ht hreset

end Sys2Proof.Machine
end

section
/-! PROOFS. The statement of spec/70_reset_and_hazards.md: every register of R14's table reads 0 after reset (R127). -/

namespace Sys2Proof.Machine

/-- Settles O1, register by register: each reads a field that the reset state holds at 0, and CMD reads 0 (R15). -/
theorem everyRegisterResetsToZero : Obligations.EveryRegisterResetsToZero := by
  intro r
  cases r <;> rfl

end Sys2Proof.Machine
end

section
/-! PROOFS. The statements of spec/10_state.md and of spec/70_reset_and_hazards.md on single accesses: what a reset, a
register access and a direct linear-buffer access do and leave (R14, R24, R26, R127 to R129). The ideas: a register of
the window is held at its own width `n`, so that its defined bits are the low `n` bits of a word; and one equation says
what each kind of access answers. -/

namespace Sys2Proof.Machine

/-! ### Reset -/

theorem perform_reset (h : Nat) (p : List Byte) (s : State) : perform h (.reset p) s = .next (s.takeReset p) := rfl

theorem State.readReg_takeReset (s : State) (p : List Byte) (r : RegName) : (s.takeReset p).readReg r = 0 := by
  cases r <;> rfl

/-- Settles O2: a reset is `takeReset`, which sets every register to 0. -/
theorem resetClearsRegistersKeepsLinear : Obligations.ResetClearsRegistersKeepsLinear := by
  intro h p s
  exact ⟨s.takeReset p, perform_reset h p s, s.readReg_takeReset p, State.readByte_linear_congr rfl rfl,
    rfl, rfl, rfl⟩

/-- Settles O3: after a reset the plane lists nothing over the content the event carries. -/
theorem resetLeavesAnyPlaneContent : Obligations.ResetLeavesAnyPlaneContent := by
  intro h s content
  exact ⟨s.takeReset content, perform_reset h content s, fun _ => rfl⟩

/-! ### The registers of the window -/

/-- The low `n` bits of a word. -/
def lowBits (n : Nat) : Word := (BitVec.allOnes n).setWidth 32

theorem setWidth_setWidth_eq_and_lowBits (v : Word) (n : Nat) : (v.setWidth n).setWidth 32 = v &&& lowBits n := by
  ext i hi
  simp [lowBits, BitVec.getLsbD_eq_getElem hi, Bool.and_comm]

/-- A register held at `n` bits reads 0 in the other bits of the word (R14). -/
theorem setWidth_and_not_lowBits {n : Nat} (x : BitVec n) : x.setWidth 32 &&& ~~~ lowBits n = 0 := by
  ext i hi
  simp only [lowBits, BitVec.getElem_and, BitVec.getElem_not, BitVec.getElem_setWidth, BitVec.getLsbD_allOnes]
  by_cases hn : i < n
  · simp [hn]
  · simp [BitVec.getLsbD_of_ge x i (not_lt.mp hn)]

/-- A read/write register is held at the width of its defined bits (R14). -/
theorem parameterRegisters_width {row : RegName × Nat × Word} (hrow : row ∈ parameterRegisters) :
    ∃ n, row.2.2 = lowBits n ∧
      (∀ (s : State) (v : Word), (s.storeReg row.1 v).readReg row.1 = (v.setWidth n).setWidth 32) ∧
      ∀ s : State, ∃ x : BitVec n, s.readReg row.1 = x.setWidth 32 := by
  simp only [parameterRegisters, List.mem_cons, List.not_mem_nil, or_false] at hrow
  rcases hrow with rfl | rfl | rfl | rfl | rfl | rfl | rfl | rfl | rfl
  · exact ⟨14, rfl, fun _ _ => rfl, fun s => ⟨s.base, rfl⟩⟩
  · exact ⟨16, rfl, fun _ _ => rfl, fun s => ⟨s.bufw, rfl⟩⟩
  · exact ⟨16, rfl, fun _ _ => rfl, fun s => ⟨s.rx, rfl⟩⟩
  · exact ⟨16, rfl, fun _ _ => rfl, fun s => ⟨s.ry, rfl⟩⟩
  · exact ⟨16, rfl, fun _ _ => rfl, fun s => ⟨s.rw, rfl⟩⟩
  · exact ⟨16, rfl, fun _ _ => rfl, fun s => ⟨s.rh, rfl⟩⟩
  · exact ⟨4, rfl, fun _ _ => rfl, fun s => ⟨s.bpp, rfl⟩⟩
  · exact ⟨32, rfl, fun _ _ => rfl, fun s => ⟨s.lsrc, rfl⟩⟩
  · exact ⟨32, rfl, fun _ _ => rfl, fun s => ⟨s.ldst, rfl⟩⟩

/-- The table of the read/write registers has each at its offset; none is CMD (R14). -/
theorem parameterRegisters_offset :
    ∀ row ∈ parameterRegisters, row.2.1 = regOffset row.1 ∧ row.1.settable = true := by
  decide

/-- The table of the whole window has each register at its offset (R14). -/
theorem window_offset : ∀ row ∈ (RegName.cmd, 0x00, 0) :: (RegName.status, 0x04, 0x10F) ::
    (RegName.result, 0x2C, 0x7FFFFF) :: parameterRegisters, row.2.1 = regOffset row.1 := by
  decide

theorem RegName.ne_cmd_of_settable {r : RegName} (h : r.settable = true) : r ≠ .cmd := by
  rintro rfl
  exact nomatch h

theorem State.statusWord_reserved (s : State) : s.statusWord &&& ~~~ 0x10F = 0 := by
  unfold State.statusWord
  cases s.err <;> cases s.sticky <;> rfl

/-! ### Register accesses -/

/-- A write to any register but CMD is a stored write (R14). -/
theorem perform_regWrite {r : RegName} (hr : r ≠ .cmd) (h : Nat) (v : Word) (s : State) :
    perform h (.regWrite 32 (regOffset r) v) s = .next (s.storeReg r v) := by
  cases r
  case cmd => exact absurd rfl hr
  all_goals rfl

/-- An aligned read puts the value at its offset at the head of the host's record (R24; log 5). -/
theorem perform_regRead {h offset : Nat} {s : State} {g : Agent} (hg : s.agents[h]? = some g)
    (hoffset : offset % 4 = 0) :
    perform h (.regRead 32 offset) s = .next { s with
      agents := s.agents.set h { g with seen := .reg offset (s.readOffset offset) :: g.seen } } := by
  have hadmitted : accessAdmitted 32 offset = true := (accessAdmitted_iff 32 offset).mpr ⟨rfl, hoffset⟩
  simp [perform, hostRegRead, hadmitted, State.returnTo, hg]

theorem State.readOffset_regOffset (s : State) (r : RegName) : s.readOffset (regOffset r) = s.readReg r := by
  simp [State.readOffset]

theorem regOffset_aligned (r : RegName) : regOffset r % 4 = 0 := by
  cases r <;> rfl

/-- Settles O4: the write is `storeReg`, of which STATUS and RESULT take nothing. -/
theorem registerWriteStoresDefinedBits : Obligations.RegisterWriteStoresDefinedBits := by
  constructor
  · intro row hrow h v s
    obtain ⟨hoffset, hset⟩ := parameterRegisters_offset row hrow
    obtain ⟨n, hbits, hstored, -⟩ := parameterRegisters_width hrow
    refine ⟨s.storeReg row.1 v, ?_, ?_, fun r hr => s.readReg_storeReg_other v hr, ?_⟩
    · rw [hoffset, perform_regWrite (RegName.ne_cmd_of_settable hset)]
    · rw [hstored, hbits, setWidth_setWidth_eq_and_lowBits]
    · rw [s.storeReg_frame]
      exact ⟨rfl, rfl, rfl, rfl, rfl, rfl, rfl⟩
  · intro h v s
    exact ⟨perform_regWrite (r := .status) (by decide) h v s, perform_regWrite (r := .result) (by decide) h v s⟩

/-- Settles O5: the value read is the register's, which has no bit but its defined ones. -/
theorem registerReadReturnsValueOnly : Obligations.RegisterReadReturnsValueOnly := by
  intro h s g hg row hrow
  constructor
  · rw [window_offset row hrow, perform_regRead hg (regOffset_aligned _), State.readOffset_regOffset]
  · simp only [List.mem_cons] at hrow
    rcases hrow with rfl | rfl | rfl | hrow
    · exact BitVec.zero_and
    · exact s.statusWord_reserved
    · exact setWidth_and_not_lowBits s.result
    · obtain ⟨n, hbits, -, hheld⟩ := parameterRegisters_width hrow
      obtain ⟨x, hx⟩ := hheld s
      rw [hx, hbits, setWidth_and_not_lowBits]

theorem accessAdmitted_eq_false {bits offset : Nat} (h : bits < 32 ∨ offset % 4 ≠ 0) :
    accessAdmitted bits offset = false := by
  rw [← Bool.not_eq_true, accessAdmitted_iff]
  omega

/-- Settles O6: past the last register the map is empty, and the check of R24 refuses the other accesses. -/
theorem offMapOffsetsAndRefusedAccesses : Obligations.OffMapOffsetsAndRefusedAccesses := by
  constructor
  · intro h offset v s g hg haligned hoff
    have hnone := regAtOffset_eq_none hoff
    have hadmitted : accessAdmitted 32 offset = true := (accessAdmitted_iff 32 offset).mpr ⟨rfl, haligned⟩
    have hzero : s.readOffset offset = 0 := by rw [State.readOffset, hnone]
    exact ⟨by simp only [perform, hostRegWrite, hadmitted, hnone, if_true],
      by rw [perform_regRead hg haligned, hzero]⟩
  · intro h bits offset v s hbad
    have hrefused := accessAdmitted_eq_false hbad
    exact ⟨by simp [perform, hostRegWrite, hrefused], by simp [perform, hostRegRead, hrefused]⟩

/-! ### Direct accesses to the linear buffer -/

/-- Settles O7: the accesses pass the check of R26 and are `writeBytes` and `readBytes`. -/
theorem hostReadsAndWritesLinearBytes : Obligations.HostReadsAndWritesLinearBytes := by
  intro h offset bytes n s g hg
  constructor
  · intro hroom
    have hholds := (s.linearHolds_iff offset bytes.length).mpr (.inr hroom)
    refine ⟨s.writeBytes .linear offset bytes, by simp [perform, hostLinearWrite, hholds], ?_, fun i hi => ?_,
      fun a ha => ?_⟩
    · ext1 <;> simp
    · rw [State.readByte_writeBytes, if_pos (by omega), Nat.add_sub_cancel_left]
    · rw [State.readByte_writeBytes, if_neg (by omega)]
  · intro hroom
    have hholds := (s.linearHolds_iff offset n).mpr (.inr hroom)
    exact ⟨s.readBytes .linear offset n, s.readBytes_length .linear offset n,
      fun i hi => s.readBytes_getD .linear offset n i hi,
      by simp [perform, hostLinearRead, hholds, State.returnTo, hg]⟩

theorem State.linearHolds_eq_false {s : State} {offset n : Nat} (hn : 0 < n) (h : s.lbSize < offset + n) :
    s.linearHolds offset n = false := by
  rw [← Bool.not_eq_true, State.linearHolds_iff]
  omega

/-- Settles O8: the check of R26 fails. -/
theorem hostLinearAccessOutsideFaults : Obligations.HostLinearAccessOutsideFaults := by
  intro h offset bytes n s
  constructor
  · intro hne hout
    have hfails := State.linearHolds_eq_false (List.length_pos_iff.mpr hne) hout
    simp [perform, hostLinearWrite, hfails]
  · intro hn hout
    have hfails := State.linearHolds_eq_false hn hout
    simp [perform, hostLinearRead, hfails]

end Sys2Proof.Machine
end

section
/-! PROOFS. The statements of spec/30_encoding.md on the words of the map and the listing (R47, R54, R55), and of the
step (R41, R13, log 4): which transaction a step takes, what a delivered word does, what no other step can change
(R16, R23, R25), and how an interleaving of two hosts decides a shared register (R135). The idea: one equation says
what `nextEvent` takes off, and a run of given turns applies it turn by turn. -/

namespace Sys2Proof.Machine

/-! ### Words and statements -/

/-- Settles O9: the map word by word. -/
theorem opcodeMapWords : Obligations.OpcodeMapWords := by
  refine ⟨rfl, rfl, rfl, rfl, rfl, rfl, rfl, rfl, rfl, rfl, rfl, ?reserved⟩
  case reserved => decide

/-- Settles O54: each statement expands at the offset that R14's table gives its register. -/
theorem statementsAreTransactions : Obligations.StatementsAreTransactions := by
  refine ⟨fun row hrow v => ?parameter, fun row hrow v => ?readOnly, fun _ => rfl, fun _ => rfl,
    fun _ _ _ => ⟨rfl, rfl⟩⟩
  case parameter =>
    obtain ⟨hoffset, hset⟩ := parameterRegisters_offset row hrow
    rw [hoffset]
    exact ⟨hset, rfl, rfl⟩
  case readOnly =>
    simp only [List.mem_cons, List.not_mem_nil, or_false] at hrow
    rcases hrow with rfl | rfl | rfl
    · exact ⟨rfl, rfl⟩
    · exact ⟨rfl, rfl⟩
    · exact ⟨rfl, rfl⟩

/-! ### The step -/

theorem State.nextEvent_of_pending {s : State} {h : Nat} {ts : List Nat} {g : Agent} {e : HostEvent}
    {es : List HostEvent} (hturns : s.turns = h :: ts) (hg : s.agents[h]? = some g) (hpending : g.pending = e :: es) :
    s.nextEvent = (some (h, e), { s with turns := ts, agents := s.agents.set h { g with pending := es } }) := by
  simp [State.nextEvent, hturns, hg, hpending]

theorem step_of_nextEvent {s t : State} {h : Nat} {e : HostEvent} (hn : s.nextEvent = (some (h, e), t)) :
    step s = perform h e t := by
  rw [step, machineStep, hn]

theorem step_of_no_turn {s : State} (h : s.turns = []) : step s = .next s := by
  simp [step, machineStep, State.nextEvent, h]

/-- Settles O13: the turn's host has the transaction first. -/
theorem stepTakesTheTurnsFirstTransaction : Obligations.StepTakesTheTurnsFirstTransaction :=
  fun _ _ _ _ _ _ hturns hg hpending => step_of_nextEvent (State.nextEvent_of_pending hturns hg hpending)

/-- A write to offset 0 delivers its word (R13, R15). -/
theorem perform_cmd (h : Nat) (w : Word) (s : State) : perform h (.regWrite 32 0x00 w) s = hostCommand w s := rfl

theorem hostCommand_of_decode_ok {w : Word} {i : Instr} (hw : decode w = .ok i) (s : State) :
    hostCommand w s = exec i s := by
  rw [hostCommand, hw]

theorem hostCommand_of_decode_error {w : Word} {r : IllegalWord} (hw : decode w = .error r) (s : State) :
    hostCommand w s = .next (s.failedWith .opcode) := by
  rw [hostCommand, hw]
  simp only [s.complete_eq_failedWith (e := .opcode) (by decide)]

/-- Settles O14: the step is the delivery of the word. -/
theorem stepRunsTheDecodedCommand : Obligations.StepRunsTheDecodedCommand := by
  intro s h ts g w es hturns hg hpending u
  have hstep : step s = hostCommand w u :=
    stepTakesTheTurnsFirstTransaction s h ts g _ es hturns hg hpending
  exact ⟨fun i hi => hstep.trans (hostCommand_of_decode_ok hi u),
    fun r hr => hstep.trans (hostCommand_of_decode_error hr u)⟩

/-- The event placed is the next one, and taking it off gives the state it was placed in (log 8). -/
theorem State.nextEvent_withNextEvent {s : State} (h : s.agents ≠ []) (e : HostEvent) :
    (s.withNextEvent e).nextEvent = (some (0, e), s) := by
  obtain ⟨g, gs, hagents⟩ := List.exists_cons_of_ne_nil h
  have hplaced : s.withNextEvent e =
      { s with turns := 0 :: s.turns, agents := { g with pending := e :: g.pending } :: gs } := by
    rw [State.withNextEvent, hagents]
  rw [hplaced, State.nextEvent_of_pending (h := 0) rfl rfl rfl]
  simp [← hagents]

/-- Settles O15: the transaction placed is the write of the word to CMD. -/
theorem placedWordIsDeliveredNext : Obligations.PlacedWordIsDeliveredNext := by
  intro s w h
  have hw : BitVec.ofNat 32 (w.toNat % 2 ^ 32) = w := by
    rw [Nat.mod_eq_of_lt w.isLt, BitVec.ofNat_toNat, BitVec.setWidth_eq]
  rw [State.withFetchWord, hw, step_of_nextEvent (State.nextEvent_withNextEvent h _), perform_cmd]

/-- Settles O16: the two steps that deliver nothing to the engine's results. -/
theorem onlyCommandsAndResetTouchEngineResults : Obligations.OnlyCommandsAndResetTouchEngineResults := by
  refine ⟨fun s => step_of_no_turn, fun s t ht hcmd hreset => ?_⟩
  obtain ⟨herr, hsticky, hresult, hplane, hplane0⟩ := SameResults.of_step ht hcmd hreset
  exact ⟨herr, hsticky, hresult, hplane, hplane0⟩

/-! ### Two hosts and one register -/

/-- A turn that stores RX. -/
theorem step_setRx {s : State} {h : Nat} {ts : List Nat} {g : Agent} {x : Word} {es : List HostEvent}
    (hturns : s.turns = h :: ts) (hg : s.agents[h]? = some g) (hpending : g.pending = .regWrite 32 0x10 x :: es) :
    step s = .next { s with
      rx := x.setWidth 16, turns := ts, agents := s.agents.set h { g with pending := es } } :=
  step_of_nextEvent (State.nextEvent_of_pending hturns hg hpending)

/-- A turn that runs ADDR32 on a pixel in the plane (R81). -/
theorem step_addr32 {s : State} {h : Nat} {ts : List Nat} {g : Agent} {es : List HostEvent}
    (hturns : s.turns = h :: ts) (hg : s.agents[h]? = some g)
    (hpending : g.pending = .regWrite 32 0x00 (encode .addr32) :: es)
    (hlt : (s.pixelAddress .f32).offset < 4194304) :
    step s = .next { s with
      result := BitVec.ofNat 23 (s.pixelAddress .f32).offset, err := .ok
      turns := ts, agents := s.agents.set h { g with pending := es } } := by
  rw [step_of_nextEvent (State.nextEvent_of_pending hturns hg hpending), perform_cmd, hostCommand_encode]
  exact (addressCommand_spec_half_zero (f := .f32) rfl).1 hlt

/-- A run of three turns, each with its step. -/
theorem run_three {s₀ s₁ s₂ s₃ : State} (h₁ : step s₀ = .next s₁) (h₂ : step s₁ = .next s₂)
    (h₃ : step s₂ = .next s₃) : core.run 3 s₀ = .next s₃ :=
  (run_succ core h₁).trans ((run_succ core h₂).trans (run_succ core h₃))

/-- Two pixels of one page row have different addresses when they differ in the page's column (R77). -/
theorem addressOf_f32_offset_ne {bp bw x x' y : Nat} (h : x % 64 ≠ x' % 64) :
    (addressOf .f32 bp bw x y).offset ≠ (addressOf .f32 bp bw x' y).offset := by
  intro he
  obtain ⟨-, hx, -⟩ := (addressOf_eq_iff .f32 bp bw x y x' y).mp (PixelAddr.ext he rfl)
  exact h hx

/-- Settles O53: in each order the ADDR32 takes the RX of the SET before it. -/
theorem interleavingDecidesSharedRegisters : Obligations.InterleavingDecidesSharedRegisters := by
  intro s x0 x1 run address
  refine ⟨fun h0 => ⟨?after, ?before⟩, fun h1 => ?between, ?differ⟩
  case after =>
    exact ⟨_, run_three (step_setRx rfl rfl rfl) (step_addr32 rfl rfl rfl h0) (step_setRx rfl rfl rfl),
      rfl, rfl, rfl⟩
  case before =>
    exact ⟨_, run_three (step_setRx rfl rfl rfl) (step_setRx rfl rfl rfl) (step_addr32 rfl rfl rfl h0),
      rfl, rfl, rfl⟩
  case between =>
    exact ⟨_, run_three (step_setRx rfl rfl rfl) (step_setRx rfl rfl rfl) (step_addr32 rfl rfl rfl h1),
      rfl, rfl, rfl⟩
  case differ => exact addressOf_f32_offset_ne (by decide)

end Sys2Proof.Machine
end

section
/-! PROOFS. The statements of spec/40_address_engine.md on the tables and the page (R37, R77, R84), and of
spec/41_transfer.md on the three formats of one word (R99). The idea: `localPixel` finds the pixel at a place of a page,
in whatever format, so a place is the address of a pixel and, since two pixels of a page with one address agree, of one
only. -/

namespace Sys2Proof.Machine

/-! ### The tables -/

/-- The closed forms of R76 read backwards give every pair of a column table its own index, so no two pairs agree. -/
theorem columnPairs_spec {words sels : List Nat} (f : Format) (parity : Nat) {m n : Nat}
    (hinverse : ((words.zip sels).map fun q => columnInverse f parity q.1 q.2) = List.range n)
    (hbounds : ((words.zip sels).all fun q => decide (q.1 < 16) && decide (q.2 < m)) = true) :
    (words.zip sels).Nodup ∧ ∀ q ∈ words.zip sels, q.1 < 16 ∧ q.2 < m :=
  ⟨List.Nodup.of_map _ (hinverse ▸ List.nodup_range),
    fun q hq => by simpa using List.all_eq_true.mp hbounds q hq⟩

/-- Settles O21: one finite check for each kind of table, and the inverse of the pairs of R72 to R75. -/
theorem tablesArePermutations : Obligations.TablesArePermutations := by
  refine ⟨?blocks, ?colWord32, ?column8, ?column4⟩
  case blocks => decide
  case colWord32 => decide
  case column8 =>
    rw [List.forall_mem_cons, List.forall_mem_singleton]
    exact ⟨⟨rfl, rfl, columnPairs_spec .f8 0 (n := 64) rfl rfl⟩, rfl, rfl,
      columnPairs_spec .f8 1 (n := 64) rfl rfl⟩
  case column4 =>
    rw [List.forall_mem_cons, List.forall_mem_singleton]
    exact ⟨⟨rfl, rfl, columnPairs_spec .f4 0 (n := 128) rfl rfl⟩, rfl, rfl,
      columnPairs_spec .f4 1 (n := 128) rfl rfl⟩

/-- Settles O24: an F32 address is a whole word, and a half is one of two. -/
theorem planeAddressesAreAligned : Obligations.PlaneAddressesAreAligned := by
  intro bp bw x y
  obtain ⟨haligned, hhalf⟩ := addressOf_f32_aligned bp bw x y
  exact ⟨haligned, hhalf, addressOf_f8_half bp bw x y, addressOf_half_lt .f4 bp bw x y⟩

/-! ### One page -/

/-- Two pixels of one page with one address are one pixel (R77). -/
theorem local_eq_of_addressOf_eq {f : Format} {bp bw X Y x y x' y' : Nat} (hx : x < (geometry f).pageW)
    (hx' : x' < (geometry f).pageW) (hy : y < (geometry f).pageH) (hy' : y' < (geometry f).pageH)
    (h : addressOf f bp bw (X * (geometry f).pageW + x') (Y * (geometry f).pageH + y') =
      addressOf f bp bw (X * (geometry f).pageW + x) (Y * (geometry f).pageH + y)) : x' = x ∧ y' = y := by
  obtain ⟨-, hmx, hmy⟩ := (addressOf_eq_iff ..).mp h
  rw [Nat.mul_add_mod_of_lt hx, Nat.mul_add_mod_of_lt hx'] at hmx
  rw [Nat.mul_add_mod_of_lt hy, Nat.mul_add_mod_of_lt hy'] at hmy
  exact ⟨hmx, hmy⟩

/-- Settles O22: the local pixel of the place, and no other. -/
theorem pageAddressesAreABijection : Obligations.PageAddressesAreABijection := by
  intro f bp bw X Y off half hoff hplace
  obtain ⟨hx, hy, ha⟩ := addressOf_localPixel f bp bw X Y off half ⟨hoff, hplace⟩
  exact ⟨_, _, hx, hy, ha, fun x' y' hx' hy' ha' => local_eq_of_addressOf_eq hx hx' hy hy' (ha'.trans ha.symm)⟩

theorem mul_add_div_of_lt {X w x : Nat} (h : x < w) : (X * w + x) / w = X := by
  rw [Nat.mul_comm, Nat.mul_add_div (Nat.zero_lt_of_lt h), Nat.div_eq_of_lt h, Nat.add_zero]

theorem pageOf_mul_add {f : Format} {bw X Y x y : Nat} (hx : x < (geometry f).pageW) (hy : y < (geometry f).pageH) :
    pageOf f bw (X * (geometry f).pageW + x) (Y * (geometry f).pageH + y) = X + Y * bw := by
  rw [pageOf, mul_add_div_of_lt hx, mul_add_div_of_lt hy]

/-- The last pixel of a page is word 15 of column 3 of block 31 (R84). -/
theorem lastPixel_word (f : Format) (X Y : Nat) :
    blockOf f (X * (geometry f).pageW + ((geometry f).pageW - 1))
      (Y * (geometry f).pageH + ((geometry f).pageH - 1)) = 31 ∧
    columnOf f (Y * (geometry f).pageH + ((geometry f).pageH - 1)) = 3 ∧
    columnWord f (X * (geometry f).pageW + ((geometry f).pageW - 1))
      (Y * (geometry f).pageH + ((geometry f).pageH - 1)) = 15 := by
  have hx : (X * (geometry f).pageW + ((geometry f).pageW - 1)) % (geometry f).pageW = (geometry f).pageW - 1 :=
    Nat.mul_add_mod_of_lt (Nat.sub_one_lt (pageW_pos f).ne')
  have hy : (Y * (geometry f).pageH + ((geometry f).pageH - 1)) % (geometry f).pageH = (geometry f).pageH - 1 :=
    Nat.mul_add_mod_of_lt (Nat.sub_one_lt (pageH_pos f).ne')
  simp only [blockOf, columnWord, columnOf, columnIndex, hx, hy]
  cases f <;> decide

/-- Settles O23: the bounds of every word of the page, and its last one. -/
theorem pageFootprintIsTheSameInEveryFormat : Obligations.PageFootprintIsTheSameInEveryFormat := by
  intro f bp bw x y
  obtain ⟨hlo, hhi⟩ := wordIndex_bounds f bp bw x y
  refine ⟨hlo, by omega, ?_⟩
  obtain ⟨hblock, hcolumn, hword⟩ := lastPixel_word f (x / (geometry f).pageW) (y / (geometry f).pageH)
  rw [wordIndex, pageOf_mul_add (Nat.sub_one_lt (pageW_pos f).ne') (Nat.sub_one_lt (pageH_pos f).ne'), hblock, hcolumn,
    hword, pageOf]

/-! ### One word in three formats -/

/-- Every byte of an F32 pixel is at a place of the pixel's page, and in every format that has the place, it is the
address of a pixel of the page (R99). -/
theorem exists_pixel_of_f32_byte (g : Format) (bp bw x y : Nat) {i half : Nat} (hi : i < 4)
    (hplace : ∀ off, off % 4 = i → isPlace g off half) :
    ∃ x' y', pageOf g bw x' y' = pageOf .f32 bw x y ∧
      addressOf g bp bw x' y' = { offset := (addressOf .f32 bp bw x y).offset + i, half := half } := by
  obtain ⟨hlo, hhi⟩ := addressOf_bounds .f32 bp bw x y
  obtain ⟨haligned, -⟩ := addressOf_f32_aligned bp bw x y
  obtain ⟨off, hoff⟩ := Nat.exists_eq_add_of_le hlo
  obtain ⟨hx, hy, ha⟩ := addressOf_localPixel g bp bw (x / 64) (y / 32) (off + i) half
    ⟨by omega, hplace _ (by omega)⟩
  refine ⟨_, _, pageOf_mul_add hx hy, ha.trans ?_⟩
  rw [hoff, Nat.add_assoc _ off i]
  rfl

/-- Settles O27: a byte is a place of F8 and each of its halves one of F4. -/
theorem oneWordIsFourBytePixelsAndEightNibblePixels : Obligations.OneWordIsFourBytePixelsAndEightNibblePixels := by
  intro bp bw x y i h hi hh
  exact ⟨exists_pixel_of_f32_byte .f8 bp bw x y hi fun _ _ => rfl,
    exists_pixel_of_f32_byte .f4 bp bw x y hi fun _ _ => hh⟩

end Sys2Proof.Machine
end

section
/-! PROOFS. Statements of spec/41_transfer.md and spec/42_orchestrator.md on where data goes: a WRITE and then a READ
(R133), and the moves of UNSWIZZLE and SWIZZLE pixel by pixel (R103, R104); and of spec/60_exceptions.md on which code a
command ends with (R115 to R117). The idea: the reader finds at each pixel's address what the writer left there. -/

namespace Sys2Proof.Machine

/-! ### A WRITE, then a READ -/

/-- Two pixels of a format without halves have one address when they have one offset. -/
theorem State.rectAddress_eq_of_offset_eq {s : State} {f : Format} (hf : f ≠ .f4) {j k : Nat}
    (h : (s.rectAddress f j).offset = (s.rectAddress f k).offset) : s.rectAddress f j = s.rectAddress f k := by
  have hhalf : ∀ i, (s.rectAddress f i).half = 0 := by
    intro i
    cases f
    case f32 => rfl
    case f8 => rfl
    case f4 => exact absurd rfl hf
  exact PixelAddr.ext h (by rw [hhalf, hhalf])

/-- Settles O35: with no address shared each pixel is the last at its address, so the READ finds what the WRITE left. -/
theorem writeThenReadReturnsTheData : Obligations.WriteThenReadReturnsTheData := by
  intro f s t wr rd hsrc hdst hinj ht
  have hwr : exec wr s = writeCommand f s := by cases f <;> rfl
  obtain rfl : { s with plane := (writerPass f s.writePass s).plane, err := .ok } = t := by
    rw [← writerPass_complete_ok]
    exact Host.Outcome.next.inj (((exec_write_spec hwr).2 hsrc).symm.trans ht)
  have hrd : ∀ v, exec rd v = readCommand f v := fun v => by cases f <;> rfl
  refine ⟨_, (exec_read_spec (hrd _)).2 hdst, rfl, fun k hk => ?_⟩
  have hplane : ∀ a, State.readByte { s with plane := (writerPass f s.writePass s).plane, err := .ok } .plane a =
      (writerPass f s.writePass s).readByte .plane a := State.readByte_plane_congr rfl (by simp)
  have hlast : ∀ j, k < j → j < s.pixelCount → s.rectAddress f j ≠ s.rectAddress f k := fun j hkj hj he =>
    hkj.ne' (hinj j k hj hk he)
  cases f
  case f32 =>
    intro i hi
    rw [State.readByte_complete]
    refine (readerPass_f32_hit _ _ hk hi).trans ((hplane _).trans (writerPass_f32_hit s.writePass s hk hi ?_))
    exact fun j hkj hj he => hlast j hkj hj (State.rectAddress_eq_of_offset_eq (by decide) he)
  case f8 =>
    dsimp only
    rw [State.readByte_complete]
    refine (readerPass_f8_hit _ _ hk).trans ((hplane _).trans (writerPass_f8_hit s.writePass s hk ?_))
    exact fun j hkj hj he => hlast j hkj hj (State.rectAddress_eq_of_offset_eq (by decide) he)
  case f4 =>
    dsimp only
    rw [State.readByte_complete]
    refine (readerPass_f4_hit _ _ hk).trans ?_
    rw [State.readNibble, hplane]
    exact writerPass_f4_hit s.writePass s hk hlast

/-! ### The moves of the orchestrator -/

/-- A reader leaves every linear byte outside its array (R98). -/
theorem readerPass_miss (f : Format) (p : Pass) (s : State) {a : Nat}
    (h : a < p.lin ∨ p.lin + linearLength f p.count ≤ a) :
    (readerPass f p s).readByte .linear a = s.readByte .linear a := by
  cases f
  case f32 => exact readerPass_f32_miss p s h
  case f8 => exact readerPass_f8_miss p s h
  case f4 => exact readerPass_f4_missByte p s h

/-- A byte of an F32 pixel of whole pages lies in the pages. -/
theorem Pass.WholePages.f32_byte_lt {p : Pass} {P Q : Nat} (h : p.WholePages .f32 P Q) {j i : Nat} (hj : j < p.count)
    (hi : i < 4) : (p.addressAt .f32 j).offset + i < P * Q * 8192 := by
  have hlt := h.offset_lt hj
  have haligned := p.addressAt_f32_aligned j
  omega

/-- Every byte of whole pages is a byte of an F32 pixel of them. -/
theorem Pass.WholePages.exists_f32_byte {p : Pass} {P Q : Nat} (h : p.WholePages .f32 P Q) {off : Nat}
    (hoff : off < P * Q * 8192) : ∃ j < p.count, ∃ i < 4, off = (p.addressAt .f32 j).offset + i := by
  obtain ⟨j, hj, ha⟩ := h.exists_addressAt (off := off / 4 * 4) (half := 0) (by omega) ⟨by omega, rfl⟩
  refine ⟨j, hj, off % 4, Nat.mod_lt _ (by norm_num), ?_⟩
  rw [ha]
  dsimp only
  omega

/-- The halves of a byte are places of the depth's format. -/
theorem State.isPlace_depthFormat (s : State) (off : Nat) {h : Nat} (hh : h < if s.bpp.toNat = 8 then 1 else 2) :
    isPlace s.depthFormat off h := by
  unfold State.depthFormat
  split at hh
  case isTrue h8 =>
    rw [if_pos h8]
    exact Nat.lt_one_iff.mp hh
  case isFalse h4 =>
    rw [if_neg h4]
    exact hh

/-- Settles O40: the full reader finds at pixel `k` the byte that the scaled writer left there. -/
theorem unswizzleMovesEachPixel : Obligations.UnswizzleMovesEachPixel := by
  intro s t hfits ht
  obtain ⟨P, Q, hn, hpages⟩ := hfits.sizes.wholePages
  have hscaled := (hpages s.lsrc.toNat).1
  have hfull := (hpages s.ldst.toNat).2
  simp only [readByte_of_unswizzle hfits ht, unswizzlePasses, s.scaledOffset_eq s.lsrc.toNat,
    s.imageAddress_eq s.ldst.toNat]
  refine ⟨fun k hk j hj i hi hat => ?moves, fun k hk => hscaled.exists_f32_byte (hfull.offset_lt hk),
    fun a ha => ?frame⟩
  case moves =>
    have hstored := hscaled.writerPass_f32 s hj hi
    rw [← hat] at hstored
    split
    case isTrue h8 =>
      rw [State.depthFormat_of_eq h8] at hstored ⊢
      exact (readerPass_f8_hit (s.fullPass _) _ hk).trans hstored
    case isFalse h4 =>
      rw [State.depthFormat_of_ne h4] at hstored ⊢
      refine (readerPass_f4_hit (s.fullPass _) _ hk).trans ?_
      rw [State.readNibble, hstored]
      rfl
  case frame =>
    rw [readerPass_miss _ _ _ (by rwa [(hfits.lengths _).2]), writerPass_readByte_linear]

/-- Settles O41: the scaled reader finds at pixel `j` the bytes that the full writer left there. -/
theorem swizzleMovesEachPixel : Obligations.SwizzleMovesEachPixel := by
  intro s t hfits ht
  obtain ⟨P, Q, hn, hpages⟩ := hfits.sizes.wholePages
  have hscaled := (hpages s.ldst.toNat).1
  have hfull := (hpages s.lsrc.toNat).2
  simp only [readByte_of_swizzle hfits ht, swizzlePasses, s.scaledOffset_eq s.ldst.toNat,
    s.imageAddress_eq s.lsrc.toNat]
  refine ⟨fun k hk j hj i hi hat => ?moves, fun j hj i hi h hh => ?filled, fun a ha => ?frame⟩
  case moves =>
    have hloaded := readerPass_f32_hit (s.scaledPass s.ldst.toNat)
      (writerPass s.depthFormat (s.fullPass s.lsrc.toNat) s) hj hi
    rw [← hat] at hloaded
    split
    case isTrue h8 =>
      rw [State.depthFormat_of_eq h8] at hfull hloaded ⊢
      exact hloaded.trans (hfull.writerPass_f8 s hk)
    case isFalse h4 =>
      rw [State.depthFormat_of_ne h4] at hfull hloaded ⊢
      exact (congrArg (getNibble · _) hloaded).trans (hfull.writerPass_f4 s hk)
  case filled => exact hfull.exists_addressAt (hscaled.f32_byte_lt hj hi) (s.isPlace_depthFormat _ hh)
  case frame =>
    rw [readerPass_miss _ _ _ (by rwa [(hfits.lengths _).1]), writerPass_readByte_linear]

/-! ### The error codes -/

/-- A transaction answers one state. -/
theorem eq_of_next {o : Host.Outcome State Fault Refusal} {u t : State} (hu : o = .next u) (ht : o = .next t) : t = u :=
  Host.Outcome.next.inj (ht.symm.trans hu)

theorem addressCommand_err {f : Format} {s t : State} (ht : addressCommand f s = .next t) :
    t.err = .ok ∨ t.err = .range := by
  rcases addressCommand_cases f s with ⟨-, h⟩ | ⟨-, h⟩
  · exact .inl (congrArg State.err (eq_of_next h ht))
  · exact .inr (congrArg State.err (eq_of_next h ht))

theorem writeCommand_err {f : Format} {s t : State} (ht : writeCommand f s = .next t) :
    t.err = .ok ∨ t.err = .range ∨ t.err = .linear := by
  rcases writeCommand_cases f s with ⟨-, h⟩ | ⟨-, -, h⟩ | ⟨-, -, h⟩
  · exact .inr (.inl (congrArg State.err (eq_of_next h ht)))
  · exact .inr (.inr (congrArg State.err (eq_of_next h ht)))
  · exact .inl (congrArg State.err (eq_of_next h ht))

theorem readCommand_err {f : Format} {s t : State} (ht : readCommand f s = .next t) :
    t.err = .ok ∨ t.err = .range ∨ t.err = .linear := by
  rcases readCommand_cases f s with ⟨-, h⟩ | ⟨-, -, h⟩ | ⟨-, -, h⟩
  · exact .inr (.inl (congrArg State.err (eq_of_next h ht)))
  · exact .inr (.inr (congrArg State.err (eq_of_next h ht)))
  · exact .inl (congrArg State.err (eq_of_next h ht))

theorem exec_err_of_address {i : Instr} {s t : State} (hi : i ∈ [Instr.addr32, .addr8, .addr4])
    (ht : exec i s = .next t) : t.err = .ok ∨ t.err = .range := by
  simp only [List.mem_cons, List.not_mem_nil, or_false] at hi
  rcases hi with rfl | rfl | rfl
  · exact addressCommand_err (f := .f32) ht
  · exact addressCommand_err (f := .f8) ht
  · exact addressCommand_err (f := .f4) ht

theorem exec_err_of_not_orchestrator {i : Instr} {s t : State} (hi : i ∉ [Instr.unswizzle, .swizzle])
    (ht : exec i s = .next t) : t.err = .ok ∨ t.err = .range ∨ t.err = .linear := by
  cases i
  case addr32 | addr8 | addr4 => exact (addressCommand_err ht).imp_right .inl
  case write32 | write8 | write4 => exact writeCommand_err ht
  case read32 | read8 | read4 => exact readCommand_err ht
  case unswizzle | swizzle => simp at hi

theorem exec_err_ne_opcode {i : Instr} {s t : State} (ht : exec i s = .next t) : t.err ≠ .opcode := by
  rcases exec_cases i s with h | ⟨e, -, hne, h⟩
  · rw [eq_of_next h ht, State.complete_err]
    decide
  · rw [eq_of_next h ht, State.complete_err]
    exact hne

/-- Settles O47: the codes of each family of commands. -/
theorem errorCodesByCommand : Obligations.ErrorCodesByCommand := by
  refine fun i s t ht => ⟨exec_err_ne_opcode ht, fun hi => ?geometry, fun hi => ?linear⟩
  case geometry => rcases exec_err_of_not_orchestrator hi ht with h | h | h <;> simp [h]
  case linear => rcases exec_err_of_address hi ht with h | h <;> simp [h]

end Sys2Proof.Machine
end

section
/-! PROOFS. The whole machine: every step keeps the invariant (R25, R26, R113), canonical memories with equal bytes are
equal data, and a run of admitted transactions never stops (R24, R26, R111). The ideas: a completion always agrees with
STICKY, a pass whose checks hold writes inside its memory alone, and one case analysis of an event gives each rule of
the step. -/

namespace Sys2Proof.Machine

/-! ### The invariant under a command -/

/-- A completion sets STICKY with an error whatever STATUS was (R113). -/
theorem State.statusConsistent_complete (s : State) (e : ErrorCode) : (s.complete e).StatusConsistent :=
  fun he => (State.complete_sticky_iff s e).mpr (.inr he)

theorem State.MemoryCanonical.complete {s : State} (h : s.MemoryCanonical) (e : ErrorCode) :
    (s.complete e).MemoryCanonical := h

theorem State.MemoryCanonical.setResult {s : State} (h : s.MemoryCanonical) (p : PixelAddr) :
    (s.setResult p).MemoryCanonical := h

theorem addressCommand_memoryCanonical {f : Format} {s t : State} (hs : s.MemoryCanonical)
    (ht : addressCommand f s = .next t) : t.MemoryCanonical := by
  rcases addressCommand_cases f s with ⟨-, h⟩ | ⟨-, h⟩
  · exact eq_of_next h ht ▸ (hs.setResult _).complete _
  · exact eq_of_next h ht ▸ hs.complete _

/-- A WRITE command runs its pass inside the plane only (R86). -/
theorem writeCommand_memoryCanonical {f : Format} {s t : State} (hs : s.MemoryCanonical)
    (ht : writeCommand f s = .next t) : t.MemoryCanonical := by
  rcases writeCommand_cases f s with ⟨-, h⟩ | ⟨-, -, h⟩ | ⟨hplane, -, h⟩
  · exact eq_of_next h ht ▸ hs.complete _
  · exact eq_of_next h ht ▸ hs.complete _
  · exact eq_of_next h ht ▸ (writerPass_memoryCanonical hs hplane).complete _

/-- A READ command runs its pass inside the linear buffer only (R86). -/
theorem readCommand_memoryCanonical {f : Format} {s t : State} (hs : s.MemoryCanonical)
    (ht : readCommand f s = .next t) : t.MemoryCanonical := by
  rcases readCommand_cases f s with ⟨-, h⟩ | ⟨-, -, h⟩ | ⟨-, hlinear, h⟩
  · exact eq_of_next h ht ▸ hs.complete _
  · exact eq_of_next h ht ▸ hs.complete _
  · exact eq_of_next h ht ▸ (readerPass_memoryCanonical hs hlinear).complete _

/-- A writer and then a reader, each inside its memory, keep both memories canonical. -/
theorem passes_memoryCanonical {f g : Format} {p q : Pass} {s : State} (hs : s.MemoryCanonical)
    (hp : p.inPlane f = true) (hq : q.inLinear g s.lbSize = true) :
    (readerPass g q (writerPass f p s)).MemoryCanonical :=
  readerPass_memoryCanonical (writerPass_memoryCanonical hs hp) (by rwa [writerPass_lbSize])

theorem exec_unswizzle_memoryCanonical {s t : State} (hs : s.MemoryCanonical)
    (ht : exec .unswizzle s = .next t) : t.MemoryCanonical := by
  rcases execUnswizzle_cases s with ⟨hfits, h⟩ | ⟨-, h⟩
  · exact eq_of_next h ht ▸ (passes_memoryCanonical hs (hfits.scaled_inPlane _)
      (hfits.full_inLinear hfits.destination)).complete _
  · exact eq_of_next h ht ▸ hs.complete _

theorem exec_swizzle_memoryCanonical {s t : State} (hs : s.MemoryCanonical)
    (ht : exec .swizzle s = .next t) : t.MemoryCanonical := by
  rcases execSwizzle_cases s with ⟨hfits, h⟩ | ⟨-, h⟩
  · exact eq_of_next h ht ▸ (passes_memoryCanonical hs (hfits.full_inPlane _)
      (hfits.scaled_inLinear hfits.destination)).complete _
  · exact eq_of_next h ht ▸ hs.complete _

/-- No command reaches past the end of a memory (R31, R32). -/
theorem exec_memoryCanonical {i : Instr} {s t : State} (hs : s.MemoryCanonical) (ht : exec i s = .next t) :
    t.MemoryCanonical := by
  cases i
  case addr32 | addr8 | addr4 => exact addressCommand_memoryCanonical hs ht
  case write32 | write8 | write4 => exact writeCommand_memoryCanonical hs ht
  case read32 | read8 | read4 => exact readCommand_memoryCanonical hs ht
  case unswizzle => exact exec_unswizzle_memoryCanonical hs ht
  case swizzle => exact exec_swizzle_memoryCanonical hs ht

/-- A delivered command word keeps the invariant: it is a completion (R111, R113). -/
theorem hostCommand_inv {w : Word} {s t : State} (hs : s.Inv) (ht : hostCommand w s = .next t) : t.Inv := by
  constructor
  · rcases hostCommand_cases w s with ⟨i, -, h⟩ | ⟨-, h⟩
    · exact exec_memoryCanonical hs.1 (h.symm.trans ht)
    · exact eq_of_next h ht ▸ hs.1.complete _
  · obtain ⟨u, e, -, h⟩ := hostCommand_completes w s
    exact eq_of_next h ht ▸ u.statusConsistent_complete e

/-! ### The invariant under the other events -/

theorem State.Inv.storeReg {s : State} (h : s.Inv) (r : RegName) (v : Word) : (s.storeReg r v).Inv := by
  rw [s.storeReg_frame]
  exact h

theorem State.Inv.returnTo {s : State} (h : s.Inv) (j : Nat) (x : Seen) : (s.returnTo j x).Inv := by
  refine ⟨State.memoryCanonical_congr h.1 ?_ ?_ ?_ ?_ ?_, ?_⟩
  case refine_6 => simpa [State.StatusConsistent] using h.2
  all_goals simp

theorem State.Inv.writeBytes_linear {s : State} (h : s.Inv) {a : Nat} {vs : List Byte}
    (ha : vs.length = 0 ∨ a + vs.length ≤ s.lbSize) : (s.writeBytes .linear a vs).Inv :=
  ⟨State.memoryCanonical_writeBytes h.1 ha, by simpa [State.StatusConsistent] using h.2⟩

theorem State.Inv.takeReset {s : State} (h : s.Inv) (p : List Byte) : (s.takeReset p).Inv :=
  ⟨⟨Memory.wf_nil _ _, h.1.2⟩, fun he => absurd rfl he⟩

theorem State.Inv.nextEvent {s : State} (h : s.Inv) : s.nextEvent.2.Inv := by
  rw [s.nextEvent_frame]
  exact h

/-- Every event that answers a next state keeps the invariant. -/
theorem perform_inv {h : Nat} {e : HostEvent} {s t : State} (hs : s.Inv) (ht : perform h e s = .next t) : t.Inv := by
  rcases perform_cases h e s with ⟨w, -, hu⟩ | ⟨_, v, r, -, -, -, hu⟩ | ⟨_, _, -, -, hu⟩ | ⟨_, -, hu⟩ |
    ⟨_, _, -, hroom, hu⟩ | ⟨_, _, -, hu⟩ | ⟨p, -, hu⟩ | ⟨-, ⟨_, _, hu⟩ | ⟨_, _, hu⟩⟩
  · exact hostCommand_inv hs (hu.symm.trans ht)
  · exact eq_of_next hu ht ▸ hs.storeReg r v
  · exact eq_of_next hu ht ▸ hs
  · exact eq_of_next hu ht ▸ hs.returnTo h _
  · exact eq_of_next hu ht ▸ hs.writeBytes_linear hroom
  · exact eq_of_next hu ht ▸ hs.returnTo h _
  · exact eq_of_next hu ht ▸ hs.takeReset p
  all_goals exact nomatch hu.symm.trans ht

/-- Settles O50: a step takes a turn off, and then an event keeps the invariant. -/
theorem everyStepKeepsTheInvariant : Obligations.EveryStepKeepsTheInvariant := by
  intro s t hs ht
  rcases step_cases s with ⟨-, h⟩ | ⟨_, _, -, h⟩
  · exact eq_of_next h ht ▸ hs.nextEvent
  · exact perform_inv hs.nextEvent (h.symm.trans ht)

/-- Settles O49: both memories list nothing, and ERR is 0. -/
theorem invariantHoldsAtReset : Obligations.InvariantHoldsAtReset :=
  ⟨⟨Memory.wf_nil _ _, Memory.wf_nil _ _⟩, fun he => absurd rfl he⟩

/-! ### Equal bytes -/

/-- Settles O51: a canonical list is determined by the bytes it stands for, memory by memory. -/
theorem equalMemoriesAreEqualData : Obligations.EqualMemoriesAreEqualData := by
  intro s t hs ht hplane0 hlb0 hread
  obtain ⟨hplane, hlinear⟩ := ht
  have hinitial := State.initial_eq hplane0 hlb0
  rw [hinitial] at hplane hlinear
  refine ⟨Memory.eq_of_read_eq hplane hs.1 fun a => ?_, Memory.eq_of_read_eq hlinear hs.2 fun a => ?_⟩
  · simpa only [State.readByte, hinitial] using hread .plane a
  · simpa only [State.readByte, hinitial] using hread .linear a

/-! ### Admitted transactions -/

/-- A record keeps what its host has still to make. -/
theorem State.returnTo_pending {s : State} {h : Nat} {x : Seen} {g : Agent} (hg : g ∈ (s.returnTo h x).agents) :
    ∃ g' ∈ s.agents, g.pending = g'.pending := by
  unfold State.returnTo at hg
  split at hg
  · exact ⟨g, hg, rfl⟩
  · next g₀ hg₀ =>
    rcases List.mem_or_eq_of_mem_set hg with hg | rfl
    · exact ⟨g, hg, rfl⟩
    · exact ⟨g₀, List.mem_of_getElem? hg₀, rfl⟩

/-- `t` has the turns and LB_SIZE of `s`, and nothing to make that `s` had not. -/
structure SameSchedule (s t : State) : Prop where
  turns : t.turns = s.turns
  lbSize : t.lbSize = s.lbSize
  pending : ∀ g ∈ t.agents, ∃ g' ∈ s.agents, g.pending = g'.pending

namespace SameSchedule

theorem of_agents_eq {s t : State} (hturns : t.turns = s.turns) (hsize : t.lbSize = s.lbSize)
    (hagents : t.agents = s.agents) : SameSchedule s t :=
  ⟨hturns, hsize, fun g hg => ⟨g, hagents ▸ hg, rfl⟩⟩

theorem of_returnTo (s : State) (h : Nat) (x : Seen) : SameSchedule s (s.returnTo h x) :=
  ⟨by simp, by simp, fun _ => State.returnTo_pending⟩

theorem of_hostCommand (w : Word) (s : State) : ∃ t, hostCommand w s = .next t ∧ SameSchedule s t := by
  rcases hostCommand_next w s with ⟨i, -, h⟩ | ⟨e, -, h⟩
  · refine ⟨_, h, ?_⟩
    rw [commandEffect_frame]
    exact of_agents_eq rfl rfl rfl
  · exact ⟨_, h, of_agents_eq rfl rfl rfl⟩

theorem of_storeReg (s : State) (r : RegName) (v : Word) : SameSchedule s (s.storeReg r v) := by
  rw [s.storeReg_frame]
  exact of_agents_eq rfl rfl rfl

/-- An admitted event answers a next state and leaves the schedule (R24, R26, R111). -/
theorem of_perform {h : Nat} {e : HostEvent} {s : State} (he : admitted s.lbSize e = true) :
    ∃ t, perform h e s = .next t ∧ SameSchedule s t := by
  rcases perform_cases h e s with ⟨w, -, hu⟩ | ⟨_, v, r, -, -, -, hu⟩ | ⟨_, _, -, -, hu⟩ | ⟨_, -, hu⟩ |
    ⟨_, _, -, -, hu⟩ | ⟨_, _, -, hu⟩ | ⟨p, -, hu⟩ | ⟨hnot, -⟩
  · rw [hu]
    exact of_hostCommand w s
  · exact ⟨_, hu, of_storeReg s r v⟩
  · exact ⟨_, hu, of_agents_eq rfl rfl rfl⟩
  · exact ⟨_, hu, of_returnTo s h _⟩
  · exact ⟨_, hu, of_agents_eq (by simp) (by simp) (by simp)⟩
  · exact ⟨_, hu, of_returnTo s h _⟩
  · exact ⟨_, hu, of_agents_eq rfl rfl rfl⟩
  · rw [he] at hnot
    exact nomatch hnot

theorem keeps_admitted {s t : State} (h : SameSchedule s t) (hs : s.Admitted) : t.Admitted := by
  intro g hg e he
  obtain ⟨g', hg', hpending⟩ := h.pending g hg
  rw [h.lbSize]
  exact hs g' hg' e (hpending ▸ he)

end SameSchedule

theorem State.nextEvent_turns (s : State) : s.nextEvent.2.turns = s.turns.tail := by
  rw [s.nextEvent_frame]

theorem State.nextEvent_lbSize (s : State) : s.nextEvent.2.lbSize = s.lbSize := by
  rw [s.nextEvent_frame]

theorem State.Admitted.nextEvent {s : State} (h : s.Admitted) : s.nextEvent.2.Admitted := by
  intro g hg e he
  obtain ⟨g', hg', he'⟩ := s.nextEvent_pending hg he
  rw [s.nextEvent_lbSize]
  exact h g' hg' e he'

/-- Settles O52: the event made was pending, so it is admitted and answers. -/
theorem admittedRunsNeverStop : Obligations.AdmittedRunsNeverStop := by
  intro s hs
  rcases step_cases s with ⟨-, hstep⟩ | ⟨h, e, hn, hstep⟩
  · exact ⟨_, hstep, hs.nextEvent, s.nextEvent_turns, s.nextEvent_lbSize⟩
  · obtain ⟨g, hg, he⟩ := s.nextEvent_mem hn
    obtain ⟨t, ht, hsame⟩ := SameSchedule.of_perform (h := h) (e := e) (s := s.nextEvent.2)
      (by rw [s.nextEvent_lbSize]; exact hs g hg e he)
    exact ⟨t, hstep.trans ht, hsame.keeps_admitted hs.nextEvent, hsame.turns.trans s.nextEvent_turns,
      hsame.lbSize.trans s.nextEvent_lbSize⟩

end Sys2Proof.Machine
end
